-- ==== Sys2Proof/Word.lean ====
section
/-! DEFINITION. The word types of the core: bytes, instruction words, addresses, register indexes (spec/00_scope.md R1 to R9). -/

namespace Sys2Proof

/-- A memory byte, a general register, a timer, an 8-bit immediate `nn` (R2, R8, R71). -/
abbrev Byte := BitVec 8

/-- An instruction word; also I, pc and a call-stack entry (R3, R4, R5, R9). -/
abbrev Word := BitVec 16

/-- The 12-bit address field `nnn` (R71). -/
abbrev Addr := BitVec 12

/-- The 4-bit immediate field `n` (R71). -/
abbrev Nibble := BitVec 4

/-- The index of a general register, from a field `x` or `y` (R2, R71). -/
abbrev Reg := Fin 16

/-- The number of one of the 16 keys (R7). -/
abbrev KeyIx := Fin 16

end Sys2Proof
end

