-- ==== Sys2Proof/Syntax.lean ====
section
/-! DEFINITION. The instructions: one constructor per row of spec/opcode_table.json (spec/30_encoding.md R74, operands R71, R72). -/

namespace Sys2Proof

/-- The 35 instructions and the catch-all, in the table's order (R74). Register operands are the fields x and y. -/
inductive Instr where
  /-- 00E0, R170 -/
  | cls
  /-- 00EE, R100 -/
  | ret
  /-- 0nnn but for 00E0 and 00EE, R93 -/
  | sys (nnn : Addr)
  /-- 1nnn, R101 -/
  | jp (nnn : Addr)
  /-- 2nnn, R102 -/
  | call (nnn : Addr)
  /-- 3xnn, R103 -/
  | seImm (x : Reg) (nn : Byte)
  /-- 4xnn, R104 -/
  | sneImm (x : Reg) (nn : Byte)
  /-- 5xy0, R105 -/
  | seReg (x y : Reg)
  /-- 6xnn, R121 -/
  | ldImm (x : Reg) (nn : Byte)
  /-- 7xnn, R122 -/
  | addImm (x : Reg) (nn : Byte)
  /-- 8xy0, R123 -/
  | ldReg (x y : Reg)
  /-- 8xy1, R124 -/
  | or (x y : Reg)
  /-- 8xy2, R125 -/
  | and (x y : Reg)
  /-- 8xy3, R126 -/
  | xor (x y : Reg)
  /-- 8xy4, R127 -/
  | addReg (x y : Reg)
  /-- 8xy5, R128 -/
  | sub (x y : Reg)
  /-- 8xy6, R129; y is decoded and ignored -/
  | shr (x y : Reg)
  /-- 8xy7, R130 -/
  | subn (x y : Reg)
  /-- 8xyE, R131; y is decoded and ignored -/
  | shl (x y : Reg)
  /-- 9xy0, R106 -/
  | sneReg (x y : Reg)
  /-- Annn, R150 -/
  | ldI (nnn : Addr)
  /-- Bnnn, R107 -/
  | jpV0 (nnn : Addr)
  /-- Cxnn, R132 -/
  | rnd (x : Reg) (nn : Byte)
  /-- Dxyn, R171 -/
  | drw (x y : Reg) (n : Nibble)
  /-- Ex9E, R190 -/
  | skp (x : Reg)
  /-- ExA1, R191 -/
  | sknp (x : Reg)
  /-- Fx07, R192 -/
  | ldVxDt (x : Reg)
  /-- Fx0A, R193 -/
  | ldVxK (x : Reg)
  /-- Fx15, R194 -/
  | ldDt (x : Reg)
  /-- Fx18, R195 -/
  | ldSt (x : Reg)
  /-- Fx1E, R151 -/
  | addI (x : Reg)
  /-- Fx29, R152 -/
  | ldF (x : Reg)
  /-- Fx33, R153 -/
  | ldB (x : Reg)
  /-- Fx55, R154; x is the last register stored -/
  | ldStore (x : Reg)
  /-- Fx65, R155; x is the last register loaded -/
  | ldLoad (x : Reg)
  /-- any other word, R76 and R94 -/
  | unmatched (w : Word)
deriving DecidableEq, Repr

end Sys2Proof
end

