-- ==== Sys2Proof/WellFormed.lean ====
section
/-! DEFINITION. Which terms of `Instr` are instructions: SYS is not the word of CLS or RET (R75), and an unmatched word is one
of R76's. Every register index and immediate is legal (R72). -/

namespace Sys2Proof

/-- The unmatched words: the table of R76, row by row. -/
def isUnmatched (w : Word) : Bool :=
  match w.toNat / 4096 with
  | 0x5 => w.toNat % 16 != 0
  | 0x8 => [0x8, 0x9, 0xA, 0xB, 0xC, 0xD, 0xF].contains (w.toNat % 16)
  | 0x9 => w.toNat % 16 != 0
  | 0xE => !([0x9E, 0xA1].contains (w.toNat % 256))
  | 0xF => !([0x07, 0x0A, 0x15, 0x18, 0x1E, 0x29, 0x33, 0x55, 0x65].contains (w.toNat % 256))
  | _ => false

/-- The terms that stand for a word of their own row. -/
def Instr.wf : Instr → Bool
  | .sys nnn => nnn != 0x0E0 && nnn != 0x0EE
  | .unmatched w => isUnmatched w
  | .cls | .ret | .jp _ | .call _ | .seImm _ _ | .sneImm _ _ | .seReg _ _ | .ldImm _ _ | .addImm _ _ | .ldReg _ _
  | .or _ _ | .and _ _ | .xor _ _ | .addReg _ _ | .sub _ _ | .shr _ _ | .subn _ _ | .shl _ _ | .sneReg _ _ | .ldI _
  | .jpV0 _ | .rnd _ _ | .drw _ _ _ | .skp _ | .sknp _ | .ldVxDt _ | .ldVxK _ | .ldDt _ | .ldSt _ | .addI _ | .ldF _
  | .ldB _ | .ldStore _ | .ldLoad _ => true

end Sys2Proof
end

