-- ==== Sys2Proof/Decode.lean ====
section
/-! DEFINITION. The decoder (spec/30_encoding.md R70 to R78) and, after it, the encoder and the opcode map of R74 as data. -/

namespace Sys2Proof

/-- The opcode class `c` = w[15:12] (R71). -/
def fieldC (w : Word) : Nat := w.toNat / 4096

/-- The low nibble w[3:0] as a number, the sub-opcode of classes 5, 8 and 9 (R73). -/
def subN (w : Word) : Nat := w.toNat % 16

/-- The low byte w[7:0] as a number, the sub-opcode of classes E and F (R73). -/
def subNN (w : Word) : Nat := w.toNat % 256

/-- `x` = w[11:8] (R71). -/
def fieldX (w : Word) : Reg := ⟨w.toNat / 256 % 16, Nat.mod_lt _ (by decide)⟩

/-- `y` = w[7:4] (R71). -/
def fieldY (w : Word) : Reg := ⟨w.toNat / 16 % 16, Nat.mod_lt _ (by decide)⟩

/-- `n` = w[3:0] (R71). -/
def fieldN (w : Word) : Nibble := BitVec.ofNat 4 w.toNat

/-- `nn` = w[7:0] (R71). -/
def fieldNN (w : Word) : Byte := BitVec.ofNat 8 w.toNat

/-- `nnn` = w[11:0] (R71). -/
def fieldNNN (w : Word) : Addr := BitVec.ofNat 12 w.toNat

/-- Class 0: the exact words 00E0 and 00EE first, then SYS (R73, R75). -/
def decode0 (w : Word) : Instr :=
  if w = 0x00E0#16 then .cls else if w = 0x00EE#16 then .ret else .sys (fieldNNN w)

/-- Class 8: the low nibble selects (R73). -/
def decode8 (w : Word) : Instr :=
  match subN w with
  | 0x0 => .ldReg (fieldX w) (fieldY w)
  | 0x1 => .or (fieldX w) (fieldY w)
  | 0x2 => .and (fieldX w) (fieldY w)
  | 0x3 => .xor (fieldX w) (fieldY w)
  | 0x4 => .addReg (fieldX w) (fieldY w)
  | 0x5 => .sub (fieldX w) (fieldY w)
  | 0x6 => .shr (fieldX w) (fieldY w)
  | 0x7 => .subn (fieldX w) (fieldY w)
  | 0xE => .shl (fieldX w) (fieldY w)
  | _ => .unmatched w

/-- Class E: the low byte selects (R73). -/
def decodeE (w : Word) : Instr :=
  match subNN w with
  | 0x9E => .skp (fieldX w)
  | 0xA1 => .sknp (fieldX w)
  | _ => .unmatched w

/-- Class F: the low byte selects (R73). -/
def decodeF (w : Word) : Instr :=
  match subNN w with
  | 0x07 => .ldVxDt (fieldX w)
  | 0x0A => .ldVxK (fieldX w)
  | 0x15 => .ldDt (fieldX w)
  | 0x18 => .ldSt (fieldX w)
  | 0x1E => .addI (fieldX w)
  | 0x29 => .ldF (fieldX w)
  | 0x33 => .ldB (fieldX w)
  | 0x55 => .ldStore (fieldX w)
  | 0x65 => .ldLoad (fieldX w)
  | _ => .unmatched w

/-- The decode algorithm of R73: every word is one of the 35 instructions or unmatched. The low nibble of classes 5 and 9 is
checked (the spec's D9, log 13). -/
def decode (w : Word) : Instr :=
  match fieldC w with
  | 0x0 => decode0 w
  | 0x1 => .jp (fieldNNN w)
  | 0x2 => .call (fieldNNN w)
  | 0x3 => .seImm (fieldX w) (fieldNN w)
  | 0x4 => .sneImm (fieldX w) (fieldNN w)
  | 0x5 => if subN w = 0 then .seReg (fieldX w) (fieldY w) else .unmatched w
  | 0x6 => .ldImm (fieldX w) (fieldNN w)
  | 0x7 => .addImm (fieldX w) (fieldNN w)
  | 0x8 => decode8 w
  | 0x9 => if subN w = 0 then .sneReg (fieldX w) (fieldY w) else .unmatched w
  | 0xA => .ldI (fieldNNN w)
  | 0xB => .jpV0 (fieldNNN w)
  | 0xC => .rnd (fieldX w) (fieldNN w)
  | 0xD => .drw (fieldX w) (fieldY w) (fieldN w)
  | 0xE => decodeE w
  | _ => decodeF w

/-- The word of two bytes, the one at the lower address first: `hi ++ lo`, big-endian (R52). -/
def wordOf (hi lo : Byte) : Word := BitVec.ofNat 16 (hi.toNat * 256 + lo.toNat)

/-- The byte of a word at the lower address, bits 15..8 (R52). -/
def highByte (w : Word) : Byte := BitVec.ofNat 8 (w.toNat / 256)

/-- The byte of a word at the higher address, bits 7..0 (R52). -/
def lowByte (w : Word) : Byte := BitVec.ofNat 8 w.toNat

/-- The decoder on bytes: an instruction and the bytes after it. It refuses only fewer than two bytes, by the name
`truncated word` (R70: every instruction is 2 bytes). -/
def decodeBytes : List Byte → Except String (Instr × List Byte)
  | hi :: lo :: rest => .ok (decode (wordOf hi lo), rest)
  | [_] => .error "truncated word"
  | [] => .error "truncated word"

/-- What the decoder reads from the instruction whose bits are `w`, numbered as spec/opcode_table.json numbers them: the first
word is bits 15..0, its bytes laid out big-endian; no instruction has a second word, so `nbits` plays no part. -/
def decodeTableWord (_nbits w : Nat) : Option Instr :=
  match decodeBytes [highByte (BitVec.ofNat 16 w), lowByte (BitVec.ofNat 16 w)] with
  | .ok (i, _) => some i
  | .error _ => none

/-! ### The encoder -/

/-- A word from its class and its address field. -/
def asmNNN (c : Nat) (nnn : Addr) : Word := BitVec.ofNat 16 (c * 4096 + nnn.toNat)

/-- A word from its class, x and immediate or sub-opcode byte. -/
def asmXNN (c : Nat) (x : Reg) (nn : Nat) : Word := BitVec.ofNat 16 (c * 4096 + x.val * 256 + nn)

/-- A word from its class, x, y and immediate or sub-opcode nibble. -/
def asmXYN (c : Nat) (x y : Reg) (n : Nat) : Word := BitVec.ofNat 16 (c * 4096 + x.val * 256 + y.val * 16 + n)

/-- The word of an instruction, from the patterns of R74. -/
def encode : Instr → Word
  | .cls => 0x00E0#16
  | .ret => 0x00EE#16
  | .sys nnn => asmNNN 0x0 nnn
  | .jp nnn => asmNNN 0x1 nnn
  | .call nnn => asmNNN 0x2 nnn
  | .seImm x nn => asmXNN 0x3 x nn.toNat
  | .sneImm x nn => asmXNN 0x4 x nn.toNat
  | .seReg x y => asmXYN 0x5 x y 0x0
  | .ldImm x nn => asmXNN 0x6 x nn.toNat
  | .addImm x nn => asmXNN 0x7 x nn.toNat
  | .ldReg x y => asmXYN 0x8 x y 0x0
  | .or x y => asmXYN 0x8 x y 0x1
  | .and x y => asmXYN 0x8 x y 0x2
  | .xor x y => asmXYN 0x8 x y 0x3
  | .addReg x y => asmXYN 0x8 x y 0x4
  | .sub x y => asmXYN 0x8 x y 0x5
  | .shr x y => asmXYN 0x8 x y 0x6
  | .subn x y => asmXYN 0x8 x y 0x7
  | .shl x y => asmXYN 0x8 x y 0xE
  | .sneReg x y => asmXYN 0x9 x y 0x0
  | .ldI nnn => asmNNN 0xA nnn
  | .jpV0 nnn => asmNNN 0xB nnn
  | .rnd x nn => asmXNN 0xC x nn.toNat
  | .drw x y n => asmXYN 0xD x y n.toNat
  | .skp x => asmXNN 0xE x 0x9E
  | .sknp x => asmXNN 0xE x 0xA1
  | .ldVxDt x => asmXNN 0xF x 0x07
  | .ldVxK x => asmXNN 0xF x 0x0A
  | .ldDt x => asmXNN 0xF x 0x15
  | .ldSt x => asmXNN 0xF x 0x18
  | .addI x => asmXNN 0xF x 0x1E
  | .ldF x => asmXNN 0xF x 0x29
  | .ldB x => asmXNN 0xF x 0x33
  | .ldStore x => asmXNN 0xF x 0x55
  | .ldLoad x => asmXNN 0xF x 0x65
  | .unmatched w => w

/-! ### The opcode map as data -/

/-- One row of R74: mask, match, and the instruction read from a word of the row. -/
abbrev OpcodeRow := Word × Word × (Word → Instr)

/-- A word lies in a row: `(w & mask) == match`. -/
def OpcodeRow.hits (r : OpcodeRow) (w : Word) : Bool := w &&& r.1 == r.2.1

/-- The rows of R74 for classes 0 to 7. -/
def opcodeMapLow : List OpcodeRow :=
  [(0xFFFF#16, 0x00E0#16, fun _ => .cls),
   (0xFFFF#16, 0x00EE#16, fun _ => .ret),
   (0xF000#16, 0x0000#16, fun w => .sys (fieldNNN w)),
   (0xF000#16, 0x1000#16, fun w => .jp (fieldNNN w)),
   (0xF000#16, 0x2000#16, fun w => .call (fieldNNN w)),
   (0xF000#16, 0x3000#16, fun w => .seImm (fieldX w) (fieldNN w)),
   (0xF000#16, 0x4000#16, fun w => .sneImm (fieldX w) (fieldNN w)),
   (0xF00F#16, 0x5000#16, fun w => .seReg (fieldX w) (fieldY w)),
   (0xF000#16, 0x6000#16, fun w => .ldImm (fieldX w) (fieldNN w)),
   (0xF000#16, 0x7000#16, fun w => .addImm (fieldX w) (fieldNN w))]

/-- The rows of R74 for classes 8 to D. -/
def opcodeMapMid : List OpcodeRow :=
  [(0xF00F#16, 0x8000#16, fun w => .ldReg (fieldX w) (fieldY w)),
   (0xF00F#16, 0x8001#16, fun w => .or (fieldX w) (fieldY w)),
   (0xF00F#16, 0x8002#16, fun w => .and (fieldX w) (fieldY w)),
   (0xF00F#16, 0x8003#16, fun w => .xor (fieldX w) (fieldY w)),
   (0xF00F#16, 0x8004#16, fun w => .addReg (fieldX w) (fieldY w)),
   (0xF00F#16, 0x8005#16, fun w => .sub (fieldX w) (fieldY w)),
   (0xF00F#16, 0x8006#16, fun w => .shr (fieldX w) (fieldY w)),
   (0xF00F#16, 0x8007#16, fun w => .subn (fieldX w) (fieldY w)),
   (0xF00F#16, 0x800E#16, fun w => .shl (fieldX w) (fieldY w)),
   (0xF00F#16, 0x9000#16, fun w => .sneReg (fieldX w) (fieldY w)),
   (0xF000#16, 0xA000#16, fun w => .ldI (fieldNNN w)),
   (0xF000#16, 0xB000#16, fun w => .jpV0 (fieldNNN w)),
   (0xF000#16, 0xC000#16, fun w => .rnd (fieldX w) (fieldNN w)),
   (0xF000#16, 0xD000#16, fun w => .drw (fieldX w) (fieldY w) (fieldN w))]

/-- The rows of R74 for classes E and F, and the catch-all, which comes last. -/
def opcodeMapHigh : List OpcodeRow :=
  [(0xF0FF#16, 0xE09E#16, fun w => .skp (fieldX w)),
   (0xF0FF#16, 0xE0A1#16, fun w => .sknp (fieldX w)),
   (0xF0FF#16, 0xF007#16, fun w => .ldVxDt (fieldX w)),
   (0xF0FF#16, 0xF00A#16, fun w => .ldVxK (fieldX w)),
   (0xF0FF#16, 0xF015#16, fun w => .ldDt (fieldX w)),
   (0xF0FF#16, 0xF018#16, fun w => .ldSt (fieldX w)),
   (0xF0FF#16, 0xF01E#16, fun w => .addI (fieldX w)),
   (0xF0FF#16, 0xF029#16, fun w => .ldF (fieldX w)),
   (0xF0FF#16, 0xF033#16, fun w => .ldB (fieldX w)),
   (0xF0FF#16, 0xF055#16, fun w => .ldStore (fieldX w)),
   (0xF0FF#16, 0xF065#16, fun w => .ldLoad (fieldX w)),
   (0x0000#16, 0x0000#16, fun w => .unmatched w)]

/-- The opcode map of R74 and spec/opcode_table.json, in its order: the first row a word lies in is its instruction. The
decoder above follows R73 and does not use this list; that the two agree is a claim. -/
def opcodeMap : List OpcodeRow := opcodeMapLow ++ opcodeMapMid ++ opcodeMapHigh

/-- The instruction of the first row that a word lies in. -/
def firstMatch : List OpcodeRow → Word → Option Instr
  | [], _ => none
  | r :: rest, w => if r.hits w then some (r.2.2 w) else firstMatch rest w

end Sys2Proof
end

