-- ==== Sys2Proof/Config.lean ====
section
/-! DEFINITION. What an implementation fixes (spec/00_scope.md R1 to R14, spec/20_memory.md R65) and the free values. -/

namespace Sys2Proof.Config

/-- `MEM_SIZE` (R1). -/
def memSize : Nat := 4096

/-- `PROG_BASE` (R10). -/
def progBase : Nat := 0x200

/-- `MAX_PROG_LEN`: the longest image that loads (R10, R241). -/
def maxProgLen : Nat := 3583

/-- `GLYPH_SIZE` (R11). -/
def glyphSize : Nat := 5

/-- Glyphs 0 to 7 of the default FONT (R65; PRESUMED, log 3). -/
def fontLow : List Byte :=
  [0xF0, 0x90, 0x90, 0x90, 0xF0] ++ [0x20, 0x60, 0x20, 0x20, 0x70] ++
  [0xF0, 0x10, 0xF0, 0x80, 0xF0] ++ [0xF0, 0x10, 0xF0, 0x10, 0xF0] ++
  [0x90, 0x90, 0xF0, 0x10, 0x10] ++ [0xF0, 0x80, 0xF0, 0x10, 0xF0] ++
  [0xF0, 0x80, 0xF0, 0x90, 0xF0] ++ [0xF0, 0x10, 0x20, 0x40, 0x40]

/-- Glyphs 8 to F of the default FONT (R65; PRESUMED, log 3). -/
def fontHigh : List Byte :=
  [0xF0, 0x90, 0xF0, 0x90, 0xF0] ++ [0xF0, 0x90, 0xF0, 0x10, 0xF0] ++
  [0xF0, 0x90, 0xF0, 0x90, 0x90] ++ [0xE0, 0x90, 0xE0, 0x90, 0xE0] ++
  [0xF0, 0x80, 0x80, 0x80, 0xF0] ++ [0xE0, 0x90, 0x90, 0x90, 0xE0] ++
  [0xF0, 0x80, 0xF0, 0x80, 0xF0] ++ [0xF0, 0x80, 0xF0, 0x80, 0x80]

/-- The parameter `FONT` at its default value: 80 bytes, glyph k at [5k, 5k+5), top row first (R11, R65, D12; PRESUMED,
log 3). -/
def font : List Byte := fontLow ++ fontHigh

/-- The same 80 bytes with their number, as the parameter is held in `State.font` and given to `State.construct`. -/
def fontVector : Vector Byte 80 := ⟨font.toArray, by decide⟩

/-- FREE VALUE. `random_byte()`: the byte the k-th draw gives (R13, R132, D14; log 2). It has no value in Lean, so a claim
about it holds for every random source. -/
opaque rnd : Nat → Byte

end Sys2Proof.Config
end

