-- ==== Sys2Proof/Machine/State.lean ====
section
/-! DEFINITION. The state of the core (spec/10_state.md), as plain data, and the machine right after construction with an
empty image (spec/70_reset_and_hazards.md R240). -/

namespace Sys2Proof.Machine

/-- The run status (R32). -/
inductive Status where
  /-- the core takes steps and ticks -/
  | running
  /-- after a fatal error (R212) -/
  | halted
  /-- after the host's stop signal (R222) -/
  | stopped
deriving DecidableEq, Repr

/-- The fault codes of R211; `Machine/Ports.lean` gives their numbers. -/
inductive FaultCode where
  /-- 0: no fault recorded -/
  | none
  /-- 1: CALL with SP = 16 -/
  | stackOverflow
  /-- 2: RET with SP = 0 -/
  | stackUnderflow
  /-- 3: an address above 0xFFF -/
  | memRange
  /-- 4: SKP or SKNP with V[x] > 15 -/
  | keyRange
deriving DecidableEq, Repr

/-- The content of the unmatched-word diagnostic: the fetch address and the word (R94, R217). -/
structure Diagnostic where
  pcI : Word
  word : Word
deriving DecidableEq, Repr

/-- One atomic event of R215 and R227: a CPU step or a move of the host. -/
inductive Event where
  /-- port `step`: one `executeCycle()` (R91) -/
  | cpuStep
  /-- port `tick`: one timer tick (R219) -/
  | tick
  /-- port `key_set`: a key-down event for key k (R221) -/
  | keyDown (k : KeyIx)
  /-- port `key_clr`: the auto-release of key k (R221) -/
  | keyRelease (k : KeyIx)
  /-- port `stop` (R222) -/
  | stop
  /-- port `rst` (R244) -/
  | rst
  /-- ports `load_we`, `load_addr`, `load_data`: one byte of the image (R227, R241) -/
  | load (a : Addr) (d : Byte)
  /-- a renderer read of `pix` and `sound_active` (R223) -/
  | render
deriving DecidableEq, Repr

/-- The display buffer: 32 rows of 64 pixels, true = on (R29). -/
abbrev Display := Vector (Vector Bool 64) 32

/-- The bytes of memory that differ from the reset content, by rising address (R31; log 4). -/
abbrev Memory := List Host.Cell

/-- Everything spec/10_state.md gives the core (R20 to R32), the launch parameter FONT (R34), and four
fields of the model's own: `loadOpen`, `events`, `draws` and `diags`. -/
structure State where
  /-- V0 to VF (R20) -/
  V : Vector Byte 16
  /-- the index register (R24) -/
  I : Word
  /-- the program counter (R25) -/
  pc : Word
  /-- the number of live stack entries (R26) -/
  SP : Fin 17
  /-- the call stack (R26) -/
  stack : Vector Word 16
  /-- the delay timer (R27) -/
  DT : Byte
  /-- the sound timer (R27) -/
  ST : Byte
  /-- the display buffer (R29) -/
  pix : Display
  /-- the key latch, true = pressed (R30) -/
  key : Vector Bool 16
  /-- memory (R31, R50) -/
  mem : Memory
  /-- the run status (R32) -/
  status : Status
  /-- the fault record's code (R32, R211) -/
  faultCode : FaultCode
  /-- the fault record's address (R32, R211) -/
  faultPc : Word
  /-- the launch parameter FONT this core was built with (R11, R34, R65); nothing changes it, and `rst` places it again (R244;
  log 3) -/
  font : Vector Byte 80
  /-- MODEL: no CPU step has run since construction or `rst`, so the load port is open (R227, R241; log 20) -/
  loadOpen : Bool
  /-- MODEL: the events that come next, oldest first; with none the next event is a CPU step (R215; log 1) -/
  events : List Event
  /-- MODEL: how many random bytes have been drawn (R13; log 2) -/
  draws : Nat
  /-- MODEL: the diagnostics emitted so far, newest first (R94; log 17) -/
  diags : List Diagnostic
deriving DecidableEq, Repr

/-- Why a step stops without a next state. A fatal fault of R211 is no such stop: it is a next state (R212; log 5). -/
inductive Fault where
  /-- Raised by a load-port write after the first CPU step, while not Running, or below 0x200: the spec gives the host no such
  move (R227, R228). Safe: the model stops where the spec gives no effect. -/
  | loadNotAllowed (a : Addr)
deriving DecidableEq, Repr

/-- What has no meaning in the model. -/
inductive Refusal where
  /-- An instruction without a meaning yet, by its mnemonic. No arm of `exec` raises it. Safe. -/
  | notModelled (mnemonic : String)
  /-- Raised by `State.construct` for an image of 3584 bytes or more, and by a load-port write of the byte that would make the
  image that long: the load fails and no VM exists (R241, K13). Safe. -/
  | imageTooLong (len : Nat)
deriving DecidableEq, Repr

/-- The outcomes of a step of this machine. -/
abbrev Result := Host.Outcome State Fault Refusal

/-- Construction with the default FONT and an empty image (R36, R65, R240); the model's own fields as logs 1, 2, 17 and 20 say. -/
def State.reset : State where
  V := Vector.replicate 16 0
  I := 0
  pc := 0x200
  SP := 0
  stack := Vector.replicate 16 0
  DT := 0
  ST := 0
  pix := Vector.replicate 32 (Vector.replicate 64 false)
  key := Vector.replicate 16 false
  mem := []
  status := .running
  faultCode := .none
  faultPc := 0
  font := Config.fontVector
  loadOpen := true
  events := []
  draws := 0
  diags := []

end Sys2Proof.Machine
end

