-- ==== Sys2Proof/Machine/Ops.lean ====
section
/-! DEFINITION. The named operations over memory, registers, the display and the status; taking a fatal fault
(spec/20_memory.md, spec/60_exceptions.md R212). -/

namespace Sys2Proof.Machine

/-! ### Memory -/

/-- What an address reads as when memory lists nothing for it: the reset content with the default FONT, that FONT at [0, 80)
and 0 elsewhere (R55; logs 3 and 4). -/
def Memory.blank (a : Nat) : Byte := Config.font.getD a 0

/-- The byte at an address. -/
def Memory.get : Memory → Nat → Byte
  | [], a => Memory.blank a
  | (b, v) :: rest, a => if a = b then v else Memory.get rest a

/-- Places an entry before the first one of a higher address. -/
def Memory.insertCell (a : Nat) (v : Byte) : Memory → Memory
  | [] => [(a, v)]
  | (b, u) :: rest => if a < b then (a, v) :: (b, u) :: rest else (b, u) :: Memory.insertCell a v rest

/-- Writes one byte; a byte equal to the reset content is not listed. -/
def Memory.put (m : Memory) (a : Nat) (v : Byte) : Memory :=
  let others := m.filter (fun c => c.1 != a)
  if v = Memory.blank a then others else Memory.insertCell a v others

/-- Writes bytes at consecutive addresses, in ascending order (R54). -/
def Memory.putBytes : Memory → Nat → List Byte → Memory
  | m, _, [] => m
  | m, a, v :: rest => Memory.putBytes (m.put a v) (a + 1) rest

/-- The entry lies in memory and differs from the reset content. -/
def Memory.cellOk (c : Host.Cell) : Bool := decide (c.1 < Config.memSize) && c.2 != Memory.blank c.1

/-- Addresses rise strictly. -/
def Memory.rising : Memory → Bool
  | [] => true
  | c :: rest => rest.all (fun d => decide (c.1 < d.1)) && Memory.rising rest

/-- The canonical form of memory. -/
def Memory.wf (m : Memory) : Bool := Memory.rising m && m.all Memory.cellOk

/-- The byte of memory at an address. -/
def State.byte (s : State) (a : Nat) : Byte := s.mem.get a

/-- All of `[a, a+n)` is in memory; an empty range always is (the check of R51). -/
def inMemory (a n : Nat) : Bool := n == 0 || decide (a + n ≤ Config.memSize)

/-- `MemRead(a, 1)` of R51, with `none` for the range fault. -/
def State.memRead (s : State) (a : Nat) : Option Byte := if inMemory a 1 then some (s.byte a) else none

/-- Stores bytes at consecutive addresses (R54). -/
def State.storeBytes (s : State) (a : Nat) (bs : List Byte) : State := { s with mem := s.mem.putBytes a bs }

/-! ### General registers -/

/-- The index of VF. -/
def vF : Reg := 15

/-- Reads V[x] (R20). -/
def State.reg (s : State) (x : Reg) : Byte := s.V[x]

/-- `V[x] <- v` (R20). -/
def State.setReg (s : State) (x : Reg) (v : Byte) : State := { s with V := s.V.set x v }

/-- The flag is written to VF first and the result to V[x] after it, so with x = F the result stays (R120.8; the spec's D4,
log 9). -/
def State.setFlagThenReg (s : State) (x : Reg) (flag result : Byte) : State := (s.setReg vF flag).setReg x result

/-- The register of number n mod 16. -/
def regIx (n : Nat) : Reg := ⟨n % 16, Nat.mod_lt _ (by decide)⟩

/-- `for i in 0..n-1: V[i] <- Mem[base + i]`, ascending (R155). -/
def State.loadRegs (s : State) (base : Nat) : Nat → State
  | 0 => s
  | n + 1 => (s.loadRegs base n).setReg (regIx n) (s.byte (base + n))

/-! ### pc, stack, status -/

/-- The fetch's advance (R91). -/
def State.advance (s : State) : State := { s with pc := s.pc + 2 }

/-- The first CPU step ends the load (R241; log 20). -/
def State.closeLoad (s : State) : State := { s with loadOpen := false }

/-- The events that come next are these (log 1). -/
def State.withEvents (s : State) (es : List Event) : State := { s with events := es }

/-- The address an executing instruction was fetched from: pc is already 2 past it (R91; log 25). -/
def State.pcI (s : State) : Word := s.pc - 2

/-- `Skip` when the condition holds (R96). -/
def State.skipIf (s : State) (c : Bool) : State := if c then { s with pc := s.pc + 2 } else s

/-- `raise Fatal(code, pc_i)`: the fatal fault entry (R212). -/
def State.raiseAt (s : State) (pcI : Word) (code : FaultCode) : State :=
  { s with status := .halted, faultCode := code, faultPc := pcI }

/-- The fatal fault of an executing instruction, at its own address (R212). -/
def State.raise (s : State) (code : FaultCode) : Result := .next (s.raiseAt s.pcI code)

/-- An instruction that touches memory at `[a, a+n)`: the whole range is checked before anything is written (R51). -/
def State.checked (s : State) (a n : Nat) (done : State) : Result :=
  if inMemory a n then .next done else s.raise .memRange

/-- The instruction word at pc, big-endian, or `none` where a byte of it is outside memory (R52, R91). -/
def State.fetch (s : State) : Option Word :=
  match s.memRead s.pc.toNat, s.memRead (s.pc.toNat + 1) with
  | some hi, some lo => some (wordOf hi lo)
  | _, _ => none

/-! ### Display -/

/-- The pixel at column px and row py (R29). -/
def Display.at (d : Display) (px : Fin 64) (py : Fin 32) : Bool := (d[py])[px]

/-- `Pix[px][py] <- Pix[px][py] ^ 1` (R171). -/
def Display.toggle (d : Display) (px : Fin 64) (py : Fin 32) : Display := d.set py ((d[py]).set px (!(d[py])[px]))

/-- The display with every pixel off (R170). -/
def Display.clear : Display := Vector.replicate 32 (Vector.replicate 64 false)

/-- `k mod 64`: columns wrap (R171). -/
def columnIx (k : Nat) : Fin 64 := ⟨k % 64, Nat.mod_lt _ (by decide)⟩

/-- `k mod 32`: rows wrap (R171). -/
def rowIx (k : Nat) : Fin 32 := ⟨k % 32, Nat.mod_lt _ (by decide)⟩

/-- The XOR-plot unit on one pixel: toggles it, and raises the hit if this turned it off (R171, R173). -/
def plotPixel (px : Fin 64) (py : Fin 32) (c : Display × Bool) : Display × Bool :=
  let d := Display.toggle c.1 px py
  (d, c.2 || !Display.at d px py)

/-- The columns from `col` on of one sprite row, ascending; bit 7 - col is drawn at column (x0 + col) mod 64 (R171, R172; log
10). `k` counts the columns left. -/
def plotColumns (x0 : Nat) (py : Fin 32) (s : Byte) : Nat → Nat → Display × Bool → Display × Bool
  | 0, _, c => c
  | k + 1, col, c =>
    plotColumns x0 py s k (col + 1) (if s.getLsbD (7 - col) then plotPixel (columnIx (x0 + col)) py c else c)

/-- The rows of a sprite from the row at y0 on, ascending; each is drawn at (y0 + row) mod 32 (R171, R172). -/
def plotRows (x0 y0 : Nat) : List Byte → Display × Bool → Display × Bool
  | [], c => c
  | s :: rest, c => plotRows x0 (y0 + 1) rest (plotColumns x0 (rowIx y0) s 8 0 c)

end Sys2Proof.Machine
end

