-- ==== Sys2Proof/Machine/Flags.lean ====
section
/-! DEFINITION. What the flag-writing instructions put in VF (spec/10_state.md R23, spec/42_alu.md R120), and the 8-bit results
beside them. -/

namespace Sys2Proof.Machine

/-- 1 when the condition holds, else 0 (R23). -/
def flagOf (c : Bool) : Byte := if c then 1 else 0

/-- The carry of 8xy4: `a + b > 255` (R120.5). -/
def carryFlag (a b : Byte) : Byte := flagOf (decide (a.toNat + b.toNat > 255))

/-- No borrow in `a - b`: `a >= b` (R120.6). -/
def noBorrowFlag (a b : Byte) : Byte := flagOf (decide (a.toNat ≥ b.toNat))

/-- The bit a right shift drops: `a & 1` (R129). -/
def lowBitFlag (a : Byte) : Byte := a &&& 1

/-- The bit a left shift drops: `(a >> 7) & 1` (R131). -/
def highBitFlag (a : Byte) : Byte := (a >>> 7) &&& 1

/-- `(a + b) mod 256` (R120.2). -/
def addWrap (a b : Byte) : Byte := BitVec.ofNat 8 ((a.toNat + b.toNat) % 256)

/-- `(a - b) mod 256` (R120.2). -/
def subWrap (a b : Byte) : Byte := BitVec.ofInt 8 (((a.toNat : Int) - (b.toNat : Int)) % 256)

end Sys2Proof.Machine
end

