-- ==== Sys2Proof/Machine/Operands.lean ====
section
/-! DEFINITION. The operand forms (spec/30_encoding.md R72): zero-extended immediates and targets, the addresses formed from I,
the registers and bytes an instruction transfers, and key numbers. -/

namespace Sys2Proof.Machine

/-- `zext_16(nnn)` (R72). -/
def target (nnn : Addr) : Word := nnn.setWidth 16

/-- `zext_16(V[0]) + zext_16(nnn)`, not masked (R107; log 16). -/
def State.indexedTarget (s : State) (nnn : Addr) : Word := (s.reg 0).setWidth 16 + target nnn

/-- The base address of a transfer: I, never changed by it (R54; log 12). -/
def State.base (s : State) : Nat := s.I.toNat

/-- V[0] to V[x], inclusive (R154). -/
def State.regsUpTo (s : State) (x : Reg) : List Byte := s.V.toList.take (x.val + 1)

/-- The digits of Fx33: hundreds, tens, ones (R153). -/
def bcdDigits (v : Byte) : List Byte :=
  [BitVec.ofNat 8 (v.toNat / 100), BitVec.ofNat 8 (v.toNat / 10 % 10), BitVec.ofNat 8 (v.toNat % 10)]

/-- The bytes of memory at `[a, a+n)`, ascending. -/
def State.bytesAt (s : State) (a : Nat) : Nat → List Byte
  | 0 => []
  | n + 1 => s.byte a :: s.bytesAt (a + 1) n

/-- A key number from a register's value, `none` above 15 (R190, R191; log 8). -/
def keyOf (v : Byte) : Option KeyIx := if h : v.toNat < 16 then some ⟨v.toNat, h⟩ else none

/-- The lowest pressed key: the ascending scan of R193. -/
def firstKey (key : Vector Bool 16) : Option KeyIx := (List.finRange 16).find? (fun k => key[k])

/-- `(I + V[x]) mod 4096` (R151). -/
def indexSum (i : Word) (v : Byte) : Word := BitVec.ofNat 16 ((i.toNat + v.toNat) % Config.memSize)

/-- `V[x] * 5`, the address of a glyph (R152). -/
def glyphAddress (v : Byte) : Word := BitVec.ofNat 16 (v.toNat * Config.glyphSize)

end Sys2Proof.Machine
end

