-- ==== Sys2Proof/Machine/Alu.lean ====
section
/-! DEFINITION. Loads, arithmetic, logic, shifts and the random byte (spec/42_alu.md R120 to R132). Operands are read before
the first write. -/

namespace Sys2Proof.Machine

/-- 6xnn: `V[x] <- nn` (R121). -/
def execLdImm (x : Reg) (nn : Byte) (s : State) : Result := .next (s.setReg x nn)

/-- 7xnn: `V[x] <- (V[x] + nn) mod 256`, no flag (R122). -/
def execAddImm (x : Reg) (nn : Byte) (s : State) : Result := .next (s.setReg x (addWrap (s.reg x) nn))

/-- 8xy0: `V[x] <- V[y]` (R123). -/
def execLdReg (x y : Reg) (s : State) : Result := .next (s.setReg x (s.reg y))

/-- 8xy1: `V[x] <- V[x] | V[y]` (R124). -/
def execOr (x y : Reg) (s : State) : Result := .next (s.setReg x (s.reg x ||| s.reg y))

/-- 8xy2: `V[x] <- V[x] & V[y]` (R125). -/
def execAnd (x y : Reg) (s : State) : Result := .next (s.setReg x (s.reg x &&& s.reg y))

/-- 8xy3: `V[x] <- V[x] ^ V[y]` (R126). -/
def execXor (x y : Reg) (s : State) : Result := .next (s.setReg x (s.reg x ^^^ s.reg y))

/-- 8xy4: the sum and its carry (R127). -/
def execAddReg (x y : Reg) (s : State) : Result :=
  .next (s.setFlagThenReg x (carryFlag (s.reg x) (s.reg y)) (addWrap (s.reg x) (s.reg y)))

/-- 8xy5: `V[x] - V[y]` and no borrow (R128). -/
def execSub (x y : Reg) (s : State) : Result :=
  .next (s.setFlagThenReg x (noBorrowFlag (s.reg x) (s.reg y)) (subWrap (s.reg x) (s.reg y)))

/-- 8xy6: `V[x] >> 1` and the bit shifted out; y is ignored (R129). -/
def execShr (x _y : Reg) (s : State) : Result := .next (s.setFlagThenReg x (lowBitFlag (s.reg x)) (s.reg x >>> 1))

/-- 8xy7: `V[y] - V[x]` and no borrow (R130). -/
def execSubn (x y : Reg) (s : State) : Result :=
  .next (s.setFlagThenReg x (noBorrowFlag (s.reg y) (s.reg x)) (subWrap (s.reg y) (s.reg x)))

/-- 8xyE: `(V[x] << 1) mod 256` and the bit shifted out; y is ignored (R131). -/
def execShl (x _y : Reg) (s : State) : Result := .next (s.setFlagThenReg x (highBitFlag (s.reg x)) (s.reg x <<< 1))

/-- Cxnn: `V[x] <- draw_rnd() & nn`; the draw is a free value (R132, R13; log 2). -/
def execRnd (x : Reg) (nn : Byte) (s : State) : Result :=
  .next { s.setReg x (Config.rnd s.draws &&& nn) with draws := s.draws + 1 }

end Sys2Proof.Machine
end

