-- ==== Sys2Proof/Machine/ControlFlow.lean ====
section
/-! DEFINITION. Jumps, calls, returns and skips (spec/41_control_flow.md R100 to R107). -/

namespace Sys2Proof.Machine

/-- 00EE: pops the call stack into pc, or Fatal(StackUnderflow) (R100); the popped entry stays (log 14). -/
def execRet (s : State) : Result :=
  if h : s.SP.val = 0 then s.raise .stackUnderflow
  else
    let top : Fin 16 := ⟨s.SP.val - 1, by omega⟩
    .next { s with SP := top.castSucc, pc := s.stack[top] }

/-- 1nnn: `pc <- zext_16(nnn)` (R101). -/
def execJp (nnn : Addr) (s : State) : Result := .next { s with pc := target nnn }

/-- 2nnn: pushes pc, the return address, and jumps, or Fatal(StackOverflow) (R102). -/
def execCall (nnn : Addr) (s : State) : Result :=
  if h : s.SP.val = 16 then s.raise .stackOverflow
  else
    let free : Fin 16 := ⟨s.SP.val, by omega⟩
    .next { s with stack := s.stack.set free s.pc, SP := free.succ, pc := target nnn }

/-- 3xnn: skips if V[x] = nn (R103). -/
def execSeImm (x : Reg) (nn : Byte) (s : State) : Result := .next (s.skipIf (s.reg x == nn))

/-- 4xnn: skips if V[x] ≠ nn (R104). -/
def execSneImm (x : Reg) (nn : Byte) (s : State) : Result := .next (s.skipIf (s.reg x != nn))

/-- 5xy0: skips if V[x] = V[y] (R105). -/
def execSeReg (x y : Reg) (s : State) : Result := .next (s.skipIf (s.reg x == s.reg y))

/-- 9xy0: skips if V[x] ≠ V[y] (R106). -/
def execSneReg (x y : Reg) (s : State) : Result := .next (s.skipIf (s.reg x != s.reg y))

/-- Bnnn: `pc <- V[0] + nnn`, not masked (R107). -/
def execJpV0 (nnn : Addr) (s : State) : Result := .next { s with pc := s.indexedTarget nnn }

end Sys2Proof.Machine
end

