-- ==== Sys2Proof/Machine/Display.lean ====
section
/-! DEFINITION. The display instructions (spec/44_display.md R170 to R174). -/

namespace Sys2Proof.Machine

/-- 00E0: every pixel off (R170). -/
def execCls (s : State) : Result := .next { s with pix := Display.clear }

/-- The display and the hit after a sprite of n rows at I is plotted at (V[x], V[y]) (R171). -/
def State.sprite (s : State) (x y : Reg) (n : Nibble) : Display × Bool :=
  plotRows (s.reg x).toNat (s.reg y).toNat (s.bytesAt s.base n.toNat) (s.pix, false)

/-- Dxyn: V[x], V[y] and I are read once, the sprite is XOR-plotted, and VF gets the collision once at the end (R171; log
11). -/
def execDrw (x y : Reg) (n : Nibble) (s : State) : Result :=
  s.checked s.base n.toNat ({ s with pix := (s.sprite x y n).1 }.setReg vF (flagOf (s.sprite x y n).2))

end Sys2Proof.Machine
end

