-- ==== Sys2Proof/Machine/IndexMemory.lean ====
section
/-! DEFINITION. The index register and the memory transfers (spec/43_index_memory.md R150 to R155). I is not changed by a
transfer (log 12). -/

namespace Sys2Proof.Machine

/-- Annn: `I <- zext_16(nnn)` (R150). -/
def execLdI (nnn : Addr) (s : State) : Result := .next { s with I := target nnn }

/-- Fx1E: `I <- (I + V[x]) mod 4096`, no flag (R151). -/
def execAddI (x : Reg) (s : State) : Result := .next { s with I := indexSum s.I (s.reg x) }

/-- Fx29: `I <- V[x] * 5` (R152). -/
def execLdF (x : Reg) (s : State) : Result := .next { s with I := glyphAddress (s.reg x) }

/-- Fx33: the decimal digits of V[x] at I, I+1, I+2 (R153). -/
def execLdB (x : Reg) (s : State) : Result := s.checked s.base 3 (s.storeBytes s.base (bcdDigits (s.reg x)))

/-- Fx55: V[0] to V[x] at I and up (R154). -/
def execLdStore (x : Reg) (s : State) : Result := s.checked s.base (x.val + 1) (s.storeBytes s.base (s.regsUpTo x))

/-- Fx65: V[0] to V[x] from I and up (R155). -/
def execLdLoad (x : Reg) (s : State) : Result := s.checked s.base (x.val + 1) (s.loadRegs s.base (x.val + 1))

end Sys2Proof.Machine
end

