-- ==== Sys2Proof/Machine/NoOps.lean ====
section
/-! DEFINITION. The two no-op classes: SYS and the unmatched words (spec/40_execute_cycle.md R93, R94). In every meaning pc is
already 2 past the instruction (R91). -/

namespace Sys2Proof.Machine

/-- 0nnn: nothing (R93); no diagnostic (log 17). -/
def execSys (_nnn : Addr) (s : State) : Result := .next s

/-- An unmatched word: `emit Diagnostic(pc_i, w)` and nothing else (R94, R217). -/
def execUnmatched (w : Word) (s : State) : Result := .next { s with diags := ⟨s.pcI, w⟩ :: s.diags }

end Sys2Proof.Machine
end

