-- ==== Sys2Proof/Machine/TimersKeys.lean ====
section
/-! DEFINITION. The instructions that read and write the timers and read the key latch (spec/45_timers_keys.md R190 to R195). -/

namespace Sys2Proof.Machine

/-- Ex9E: skips if key V[x] is pressed; Fatal(KeyRange) if V[x] > 15 (R190). -/
def execSkp (x : Reg) (s : State) : Result :=
  match keyOf (s.reg x) with
  | some k => .next (s.skipIf s.key[k])
  | none => s.raise .keyRange

/-- ExA1: skips if key V[x] is not pressed; Fatal(KeyRange) if V[x] > 15 (R191). -/
def execSknp (x : Reg) (s : State) : Result :=
  match keyOf (s.reg x) with
  | some k => .next (s.skipIf (!s.key[k]))
  | none => s.raise .keyRange

/-- Fx07: `V[x] <- DT` (R192). -/
def execLdVxDt (x : Reg) (s : State) : Result := .next (s.setReg x s.DT)

/-- Fx0A: the lowest pressed key goes to V[x]; with none pressed pc goes back by 2, so the instruction runs again (R193). The
latch is not changed (log 28). -/
def execLdVxK (x : Reg) (s : State) : Result :=
  match firstKey s.key with
  | some k => .next (s.setReg x (BitVec.ofNat 8 k.val))
  | none => .next { s with pc := s.pc - 2 }

/-- Fx15: `DT <- V[x]` (R194). -/
def execLdDt (x : Reg) (s : State) : Result := .next { s with DT := s.reg x }

/-- Fx18: `ST <- V[x]` (R195). -/
def execLdSt (x : Reg) (s : State) : Result := .next { s with ST := s.reg x }

end Sys2Proof.Machine
end

