-- ==== Sys2Proof/Machine/HostMoves.lean ====
section
/-! DEFINITION. Construction and the moves of the host: ticks, the key latch, stop, `rst` and the load port
(spec/60_exceptions.md R219 to R227, spec/70_reset_and_hazards.md R240 to R244). -/

namespace Sys2Proof.Machine

/-- One timer after a tick (R219). -/
def countDown (t : Byte) : Byte := if t.toNat > 0 then t - 1 else t

/-- `tick()`: only while Running (R219, R220). -/
def State.tick (s : State) : State :=
  if s.status = .running then { s with DT := countDown s.DT, ST := countDown s.ST } else s

/-- A host write of the key latch; only while Running, since the state is frozen afterwards (R221, R222; log 19). -/
def State.setKey (s : State) (k : KeyIx) (pressed : Bool) : State :=
  if s.status = .running then { s with key := s.key.set k pressed } else s

/-- A key-down event: it sets the key, and is ignored where the key is already pressed (R221.1). -/
def State.keyDown (s : State) (k : KeyIx) : State := if s.key[k] then s else s.setKey k true

/-- The auto-release of a key (R221.2). -/
def State.keyRelease (s : State) (k : KeyIx) : State := s.setKey k false

/-- The key a key of the host's keyboard stands for: the conventional map of R221, which is the host's and no state of the
core. -/
def keyboardKey (c : Char) : Option KeyIx :=
  List.lookup c [('1', 0x1), ('2', 0x2), ('3', 0x3), ('4', 0xC), ('q', 0x4), ('w', 0x5), ('e', 0x6), ('r', 0xD),
    ('a', 0x7), ('s', 0x8), ('d', 0x9), ('f', 0xE), ('z', 0xA), ('x', 0x0), ('c', 0xB), ('v', 0xF)]

/-- The stop signal; Halted and Stopped are left by reset only (R222, R213). -/
def State.stopSignal (s : State) : State := if s.status = .running then { s with status := .stopped } else s

/-- The state that construction leaves: memory gets FONT at [0, 80) and the image at 0x200, and every other part its reset value
(R240). -/
def State.constructed (font : Vector Byte 80) (image : List Byte) : State :=
  { (State.reset.storeBytes 0 font.toList).storeBytes Config.progBase image with font := font }

/-- `construct(image)` of R240 with the parameter FONT of R65: no state for an image of 3584 bytes or more (R241). -/
def State.construct (font : Vector Byte 80) (image : List Byte) : Result :=
  if image.length ≤ Config.maxProgLen then .next (State.constructed font image)
  else .refused (.imageTooLong image.length)

/-- `rst`: construction again, with the core's own FONT and no image (R244, R11); the model's record of the environment stays
(log 21). -/
def State.rst (s : State) : State :=
  { State.constructed s.font [] with events := s.events, draws := s.draws, diags := s.diags }

/-- One write of the load port: a byte of the image, before the first step (R227, R241; log 20). -/
def State.load (s : State) (a : Addr) (d : Byte) : Result :=
  if s.status = .running ∧ s.loadOpen = true ∧ Config.progBase ≤ a.toNat then
    if a.toNat < Config.progBase + Config.maxProgLen then .next (s.storeBytes a.toNat [d])
    else .refused (.imageTooLong (Config.maxProgLen + 1))
  else .fault (.loadNotAllowed a)

end Sys2Proof.Machine
end

