-- ==== Sys2Proof/Machine/Cycle.lean ====
section
/-! DEFINITION. One `executeCycle()` (spec/40_execute_cycle.md R90, R91), one event (spec/60_exceptions.md R215), and the placing
of a word where the next fetch reads it. -/

namespace Sys2Proof.Machine

/-- `executeCycle()`: nothing unless Running (R90; log 6); fetch, advance, dispatch (R91). -/
def executeCycle (s : State) : Result :=
  if s.status = .running then
    match s.fetch with
    | some w => exec (decode w) s.closeLoad.advance
    | none => .next (s.closeLoad.raiseAt s.pc .memRange)
  else .next s

/-- One event (R215, R227). -/
def runEvent : Event → State → Result
  | .cpuStep, s => executeCycle s
  | .tick, s => .next s.tick
  | .keyDown k, s => .next (s.keyDown k)
  | .keyRelease k, s => .next (s.keyRelease k)
  | .stop, s => .next s.stopSignal
  | .rst, s => .next s.rst
  | .load a d, s => s.load a d
  | .render, s => .next s

/-- pc where a fetch can read a whole word, else the entry point. -/
def State.fetchablePc (s : State) : Word := if s.pc.toNat + 1 < Config.memSize then s.pc else 0x200

/-- The state with a word placed at pc, Running, and a CPU step as the next event. -/
def State.placeWord (s : State) (w : Word) : State :=
  { s with
    pc := s.fetchablePc
    mem := s.mem.putBytes s.fetchablePc.toNat [highByte w, lowByte w]
    status := .running
    events := [] }

end Sys2Proof.Machine
end

