-- ==== Sys2Proof/Machine/Step.lean ====
section
/-! DEFINITION. One step of the machine: the next event (spec/60_exceptions.md R215). -/

namespace Sys2Proof.Machine

/-- The oldest listed event, or a CPU step where none is listed (log 1). -/
def step (s : State) : Host.Outcome State Fault Refusal :=
  match s.events with
  | [] => executeCycle s
  | e :: rest => runEvent e (s.withEvents rest)

/-- The state whose next step fetches and runs the instruction whose bits are `w`; every instruction is one word, so `nbits`
plays no part (log 22). -/
def State.withFetchWord (s : State) (_nbits w : Nat) : State := s.placeWord (BitVec.ofNat 16 w)

end Sys2Proof.Machine
end

