-- ==== Sys2Proof/Machine/Ports.lean ====
section
/-! DEFINITION. The output ports, as functions of the state (spec/60_exceptions.md R227). The `diag_*` ports are the field
`diags`. -/

namespace Sys2Proof.Machine

/-- `sound_active = (ST != 0)` (R28, R220). -/
def State.soundActive (s : State) : Bool := s.ST != 0

/-- `pix`: the display buffer, read on demand (R223). -/
def State.pixel (s : State) (px : Fin 64) (py : Fin 32) : Bool := Display.at s.pix px py

/-- `halted` (R212). -/
def State.isHalted (s : State) : Bool := s.status == .halted

/-- `stopped` (R222). -/
def State.isStopped (s : State) : Bool := s.status == .stopped

/-- The numbers of R211 (the spec's D11, log 18). -/
def FaultCode.number : FaultCode → BitVec 3
  | .none => 0
  | .stackOverflow => 1
  | .stackUnderflow => 2
  | .memRange => 3
  | .keyRange => 4

/-- `fault_code` (R211). -/
def State.faultNumber (s : State) : BitVec 3 := s.faultCode.number

end Sys2Proof.Machine
end

