-- ==== Sys2Proof/Safety.lean ====
section
/-! DEFINITION. What counts as a safe run and how a run ends, the invariant of the reachable states, and the terms the claims
are written in: frames, written and read registers, fault causes. -/

namespace Sys2Proof.Machine

/-! ### How a run ends -/

/-- No fatal error: a Halted state is never a successful final state (K5). -/
def State.Safe (s : State) : Prop := s.status ≠ .halted

/-- Parked: Running, and the word at pc is a jump to pc (R245.1). -/
def State.Parked (s : State) : Prop :=
  s.status = .running ∧ ∃ w nnn, s.fetch = some w ∧ decode w = .jp nnn ∧ target nnn = s.pc

/-- The three ends of a run (R245). -/
def State.Ended (s : State) : Prop := s.Parked ∨ s.status = .stopped ∨ s.status = .halted

/-! ### The invariant -/

/-- What every reachable state satisfies: memory is canonical, I is below 4096 (R24), pc and the return addresses are bounded
(R25, R102), and the fault record is set exactly when the core is Halted (R32, R212). -/
structure State.Inv (s : State) : Prop where
  mem_wf : s.mem.wf = true
  I_lt : s.I.toNat < 4096
  pc_le : s.pc.toNat ≤ 0x10FE
  stack_le : ∀ j : Fin 16, (s.stack[j]).toNat ≤ 0x1000
  record : s.status = .halted ↔ s.faultCode ≠ .none
  no_fault_pc : s.faultCode = .none → s.faultPc = 0

/-! ### Frames -/

/-- The parts of the state that a frame speaks of. -/
inductive StatePart where
  | V | I | pc | SP | stack | DT | ST | pix | key | mem | status | faultRecord | font | loadOpen | events | draws | diags
deriving DecidableEq, Repr

/-- The part is the same in both states; memory is compared byte by byte. -/
def StatePart.same : StatePart → State → State → Prop
  | .V, s, t => ∀ r, t.reg r = s.reg r
  | .I, s, t => t.I = s.I
  | .pc, s, t => t.pc = s.pc
  | .SP, s, t => t.SP = s.SP
  | .stack, s, t => t.stack = s.stack
  | .DT, s, t => t.DT = s.DT
  | .ST, s, t => t.ST = s.ST
  | .pix, s, t => ∀ px py, t.pixel px py = s.pixel px py
  | .key, s, t => t.key = s.key
  | .mem, s, t => ∀ a, t.byte a = s.byte a
  | .status, s, t => t.status = s.status
  | .faultRecord, s, t => t.faultCode = s.faultCode ∧ t.faultPc = s.faultPc
  | .font, s, t => t.font = s.font
  | .loadOpen, s, t => t.loadOpen = s.loadOpen
  | .events, s, t => t.events = s.events
  | .draws, s, t => t.draws = s.draws
  | .diags, s, t => t.diags = s.diags

/-- Every part but those listed is unchanged. -/
def Frame (changed : List StatePart) (s t : State) : Prop := ∀ p, p ∉ changed → p.same s t

/-- Every general register but those listed is unchanged. -/
def RegFrame (written : List Reg) (s t : State) : Prop := ∀ r, r ∉ written → t.reg r = s.reg r

/-- Every byte of memory outside `[a, a+n)` reads as before. -/
def MemFrame (a n : Nat) (s t : State) : Prop := ∀ b, ¬ (a ≤ b ∧ b < a + n) → t.byte b = s.byte b

/-- The instruction answers a next state in which V[x] is `v` and nothing else has changed. -/
def WritesReg (i : Instr) (s : State) (x : Reg) (v : Byte) : Prop :=
  ∃ t, exec i s = .next t ∧ t.reg x = v ∧ RegFrame [x] s t ∧ Frame [.V] s t

/-- The instruction answers a next state in which V[x] is `v`, VF is `f` unless x = F, and nothing else has changed. -/
def WritesRegAndFlag (i : Instr) (s : State) (x : Reg) (v f : Byte) : Prop :=
  ∃ t, exec i s = .next t ∧ t.reg x = v ∧ (x ≠ 15 → t.reg 15 = f) ∧ RegFrame [x, 15] s t ∧ Frame [.V] s t

/-- The instruction answers a next state in which pc is `p` and nothing else has changed. -/
def WritesPc (i : Instr) (s : State) (p : Word) : Prop := ∃ t, exec i s = .next t ∧ t.pc = p ∧ Frame [.pc] s t

/-- The instruction takes the fatal fault `code` at its own address: Halted, the record written, nothing else changed
(R212; that it is a next state: log 5). -/
def TakesFault (i : Instr) (s : State) (code : FaultCode) : Prop :=
  ∃ t, exec i s = .next t ∧ t.status = .halted ∧ t.faultCode = code ∧ t.faultPc = s.pc - 2 ∧
    Frame [.status, .faultRecord] s t

/-- Executes instructions one after another, stopping at the first that answers no next state. -/
def execAll : List Instr → State → Result
  | [], s => .next s
  | i :: rest, s =>
    match exec i s with
    | .next t => execAll rest t
    | .fault r => .fault r
    | .refused r => .refused r

/-- Every word of the row (mask, match) decodes to the instruction `f` gives for it. -/
def RowDecodes (mask mtch : Word) (f : Word → Instr) : Prop := ∀ w : Word, w &&& mask = mtch → decode w = f w

/-! ### Sprites -/

/-- Sprite bit 7 - col of row `row` is 1, and its pixel is (px, py) (R172). -/
def State.spriteBit (s : State) (x y : Reg) (px : Fin 64) (py : Fin 32) (row col : Nat) : Prop :=
  (s.byte (s.I.toNat + row)).getLsbD (7 - col) = true ∧ px.val = ((s.reg x).toNat + col) % 64 ∧
    py.val = ((s.reg y).toNat + row) % 32

/-- Some 1 bit of the sprite Dxyn draws lies on the pixel (px, py) (R171, R172). -/
def State.covers (s : State) (x y : Reg) (n : Nibble) (px : Fin 64) (py : Fin 32) : Prop :=
  ∃ row col, row < n.toNat ∧ col < 8 ∧ s.spriteBit x y px py row col

end Sys2Proof.Machine

namespace Sys2Proof

open Sys2Proof.Machine

/-! ### The tables of the spec's prose -/

/-- The general registers an instruction writes, at most (R22). -/
def Instr.writesV : Instr → List Reg
  | .ldImm x _ | .addImm x _ | .ldReg x _ | .or x _ | .and x _ | .xor x _ | .rnd x _ | .ldVxDt x | .ldVxK x => [x]
  | .addReg x _ | .sub x _ | .subn x _ | .shr x _ | .shl x _ => [15, x]
  | .drw _ _ _ => [15]
  | .ldLoad x => (List.finRange 16).filter (fun r => decide (r ≤ x))
  | .cls | .ret | .sys _ | .jp _ | .call _ | .seImm _ _ | .sneImm _ _ | .seReg _ _ | .sneReg _ _ | .ldI _ | .jpV0 _
  | .skp _ | .sknp _ | .ldDt _ | .ldSt _ | .addI _ | .ldF _ | .ldB _ | .ldStore _ | .unmatched _ => []

/-- The general registers an instruction reads, at most (R22). -/
def Instr.readsV : Instr → List Reg
  | .seImm x _ | .sneImm x _ | .addImm x _ | .shr x _ | .shl x _ | .skp x | .sknp x | .ldDt x | .ldSt x | .addI x
  | .ldF x | .ldB x => [x]
  | .seReg x y | .sneReg x y | .or x y | .and x y | .xor x y | .addReg x y | .sub x y | .subn x y | .drw x y _ => [x, y]
  | .ldReg _ y => [y]
  | .jpV0 _ => [0]
  | .ldStore x => (List.finRange 16).filter (fun r => decide (r ≤ x))
  | .cls | .ret | .sys _ | .jp _ | .call _ | .ldImm _ _ | .ldI _ | .rnd _ _ | .ldVxDt _ | .ldVxK _ | .ldLoad _
  | .unmatched _ => []

/-- The parts of the state an instruction changes, at most, from the writers named in R22 and R24 to R32. -/
def Instr.mayChange : Instr → List StatePart
  | .cls => [.pix]
  | .ret => [.SP, .pc, .status, .faultRecord]
  | .sys _ => []
  | .jp _ | .jpV0 _ | .seImm _ _ | .sneImm _ _ | .seReg _ _ | .sneReg _ _ => [.pc]
  | .call _ => [.SP, .stack, .pc, .status, .faultRecord]
  | .ldImm _ _ | .addImm _ _ | .ldReg _ _ | .or _ _ | .and _ _ | .xor _ _ | .addReg _ _ | .sub _ _ | .shr _ _
  | .subn _ _ | .shl _ _ | .ldVxDt _ => [.V]
  | .rnd _ _ => [.V, .draws]
  | .ldI _ | .addI _ | .ldF _ => [.I]
  | .drw _ _ _ => [.V, .pix, .status, .faultRecord]
  | .skp _ | .sknp _ => [.pc, .status, .faultRecord]
  | .ldVxK _ => [.V, .pc]
  | .ldDt _ => [.DT]
  | .ldSt _ => [.ST]
  | .ldB _ | .ldStore _ => [.mem, .status, .faultRecord]
  | .ldLoad _ => [.V, .status, .faultRecord]
  | .unmatched _ => [.diags]

/-- The fault condition of an instruction, from the table of R211; `none` where it does not hold. -/
def Instr.faultCause (i : Instr) (s : State) : FaultCode :=
  match i with
  | .call _ => if s.SP.val = 16 then .stackOverflow else .none
  | .ret => if s.SP.val = 0 then .stackUnderflow else .none
  | .drw _ _ n => if n.toNat > 0 ∧ s.I.toNat + n.toNat - 1 > 0xFFF then .memRange else .none
  | .ldB _ => if s.I.toNat + 2 > 0xFFF then .memRange else .none
  | .ldStore x | .ldLoad x => if s.I.toNat + x.val > 0xFFF then .memRange else .none
  | .skp x | .sknp x => if (s.reg x).toNat > 0xF then .keyRange else .none
  | .cls | .sys _ | .jp _ | .seImm _ _ | .sneImm _ _ | .seReg _ _ | .ldImm _ _ | .addImm _ _ | .ldReg _ _ | .or _ _
  | .and _ _ | .xor _ _ | .addReg _ _ | .sub _ _ | .shr _ _ | .subn _ _ | .shl _ _ | .sneReg _ _ | .ldI _ | .jpV0 _
  | .rnd _ _ | .ldVxDt _ | .ldVxK _ | .ldDt _ | .ldSt _ | .addI _ | .ldF _ | .unmatched _ => .none

end Sys2Proof
end

