-- ==== Sys2Proof/Certificates/Slice0/Obligations.lean ====
section
/-! DEFINITION. The statements for the provers, from the numbered rules of spec/. The terms they are written in stand in
Sys2Proof/Safety.lean. -/

open Sys2Proof Sys2Proof.Machine

/-! ### Encoding -/

/-- R71 to R76: no field of an encoding is dropped. -/
def Obligations.DecodeOfEncodeIsTheInstruction : Prop := ∀ i : Instr, i.wf = true → decode (encode i) = i

/-- R73, R76: every word decodes to a well-formed instruction, of which it is the word; an unmatched word is one of R76's table,
and a word of that table is unmatched. -/
def Obligations.EveryWordIsTheWordOfItsInstruction : Prop :=
  ∀ w : Word, (decode w).wf = true ∧ encode (decode w) = w ∧ (decode w = .unmatched w ↔ isUnmatched w = true)

/-- R73 and R74: dispatch by class and sub-opcode gives the first row of the opcode map that the word lies in. -/
def Obligations.DecoderAgreesWithOpcodeMap : Prop := ∀ w : Word, firstMatch opcodeMap w = some (decode w)

/-- R74: two rows share a word only where SYS (row 2) overlaps CLS and RET (rows 0 and 1), or with the catch-all (row 35). -/
def Obligations.OpcodeRowsOverlapOnlyAsListed : Prop :=
  ∀ (i j : Fin opcodeMap.length) (w : Word), i < j → (opcodeMap[i]).hits w = true → (opcodeMap[j]).hits w = true →
    j.val = 35 ∨ (j.val = 2 ∧ i.val < 2)

/-- Words written out from the patterns of R74, one for each family. -/
def Obligations.SampleWordsDecode : Prop :=
  decode 0x00E0#16 = .cls ∧ decode 0x00EE#16 = .ret ∧ decode 0x0123#16 = .sys 0x123 ∧ decode 0x2ABC#16 = .call 0xABC ∧
  decode 0x37C5#16 = .seImm 7 0xC5 ∧ decode 0x5AB0#16 = .seReg 10 11 ∧ decode 0x81F5#16 = .sub 1 15 ∧
  decode 0xD12F#16 = .drw 1 2 0xF ∧ decode 0xE3A1#16 = .sknp 3 ∧ decode 0xFA33#16 = .ldB 10 ∧
  decode 0x5AB1#16 = .unmatched 0x5AB1

/-! ### Construction and the cycle -/

/-- R36, R243: the state after construction with an empty image. The font bytes rest on the default of R65 (log 3). -/
def Obligations.ResetHoldsTheTabledValues : Prop :=
  (∀ x, State.reset.reg x = 0) ∧ State.reset.I = 0 ∧ State.reset.pc = 0x200 ∧ State.reset.SP = 0 ∧
  (∀ j : Fin 16, State.reset.stack[j] = 0) ∧ State.reset.DT = 0 ∧ State.reset.ST = 0 ∧
  (∀ px py, State.reset.pixel px py = false) ∧ (∀ k : KeyIx, State.reset.key[k] = false) ∧
  (∀ a, (h : a < 80) → State.reset.byte a = Config.fontVector[a]) ∧ (∀ a, 80 ≤ a → State.reset.byte a = 0) ∧
  State.reset.status = .running ∧ State.reset.faultNumber = 0 ∧ State.reset.faultPc = 0 ∧
  State.reset.soundActive = false

/-- R240, R241: construction places any FONT at [0, 80) and an image of at most 3583 bytes at 0x200, zero elsewhere, and every
other part at its reset value (the parameter FONT is kept, log 3); a longer image has no state. -/
def Obligations.ConstructionPlacesFontAndImage : Prop :=
  ∀ (font : Vector Byte 80) (image : List Byte),
    (image.length < 3584 → ∃ t, State.construct font image = .next t ∧
      (∀ a, (h : a < 80) → t.byte a = font[a]) ∧
      (∀ j, (h : j < image.length) → t.byte (0x200 + j) = image[j]) ∧
      (∀ a, 80 ≤ a → ¬ (0x200 ≤ a ∧ a < 0x200 + image.length) → t.byte a = 0) ∧
      t.mem.wf = true ∧ t = { State.reset with mem := t.mem, font := font }) ∧
    (3584 ≤ image.length → State.construct font image = .refused (.imageTooLong image.length))

/-- R52, R90, R91, R92: a CPU step of a Running core runs the instruction whose bytes stand at pc, big-endian, with pc already
advanced by 2. A step takes the listed event off the list and closes the load port (the model's own fields, logs 1 and 20). -/
def Obligations.StepRunsTheDecodedInstruction : Prop :=
  ∀ (s : State) (i : Instr) (rest : List Event), s.status = .running → s.pc.toNat ≤ 0xFFE →
    i.wf = true → decode (wordOf (s.byte s.pc.toNat) (s.byte (s.pc.toNat + 1))) = i →
    (s.events = [] → step s = exec i { s with pc := s.pc + 2, loadOpen := false }) ∧
    (s.events = .cpuStep :: rest → step s = exec i { s with pc := s.pc + 2, loadOpen := false, events := rest })

/-- R91, R211, R212: a fetch whose word extends beyond 0xFFF takes MemRange at pc, does not advance pc and writes nothing else
(the spec's D3, log 7; that the fault is a next state: log 5; that no listed event means a CPU
step: log 1). -/
def Obligations.FetchBeyondMemoryTakesMemRange : Prop :=
  ∀ s : State, s.status = .running → s.events = [] → 0xFFE < s.pc.toNat →
    ∃ t, step s = .next t ∧ t.status = .halted ∧ t.faultCode = .memRange ∧ t.faultPc = s.pc ∧
      Frame [.status, .faultRecord, .loadOpen] s t

/-- Log 22: the state with a word placed at its fetch address runs exactly that word next. -/
def Obligations.PlacedWordIsTheNextInstruction : Prop :=
  ∀ (s : State) (nbits : Nat) (w : Word),
    step (s.withFetchWord nbits w.toNat) =
      exec (decode w) { s.withFetchWord nbits w.toNat with
        pc := (s.withFetchWord nbits w.toNat).pc + 2, loadOpen := false }

/-- R90, R213, R220, R222, R244: in Halted and Stopped no event but `rst` changes anything. (That such a step
answers the state itself: log 6. Key writes then: log 19. A load is no move then: log 20. That the event
leaves the list: log 1.) -/
def Obligations.OnlyResetLeavesHaltedOrStopped : Prop :=
  ∀ s t : State, s.status ≠ .running → (∀ rest, s.events ≠ .rst :: rest) → step s = .next t →
    t = { s with events := s.events.tail }

/-- R97, R211, R214: every instruction answers a next state in every state; a fatal fault is one (log 5). -/
def Obligations.EveryInstructionAnswersANextState : Prop := ∀ (i : Instr) (s : State), ∃ t, exec i s = .next t

/-- From R97 and R228, by the model's choices: a fatal fault is a next state (log 5), so is a step not taken (log 6), and a load
write outside its window stops (log 20). So only a load-port write can stop the machine without a next state. -/
def Obligations.StepStopsOnlyOnALoad : Prop :=
  ∀ s : State, (∀ a d rest, s.events ≠ .load a d :: rest) → ∃ t, step s = .next t

/-! ### The no-ops -/

/-- R93: 0nnn other than 00E0 and 00EE does nothing, and emits no diagnostic (the spec's D16, log 17). -/
def Obligations.SysDoesNothing : Prop :=
  ∀ (nnn : Addr) (s : State), (∃ t, exec (.sys nnn) s = .next t ∧ Frame [] s t) ∧
    ∀ w : Word, w &&& 0xF000#16 = 0x0000#16 → w ≠ 0x00E0#16 → w ≠ 0x00EE#16 → decode w = .sys (fieldNNN w)

/-- R94, R217: an unmatched word emits the diagnostic with its address and the word, and changes no state (the content is the
spec's D16, log 17). -/
def Obligations.UnmatchedWordOnlyEmitsADiagnostic : Prop :=
  ∀ (w : Word) (s : State), ∃ t, exec (.unmatched w) s = .next t ∧ t.diags = ⟨s.pc - 2, w⟩ :: s.diags ∧
    Frame [.diags] s t

/-! ### Control flow -/

/-- R101: target, encoding, and that the next fetch faults only for nnn = 0xFFF (which rests on the spec's D3 in R91, log 7). -/
def Obligations.JumpSetsPc : Prop :=
  RowDecodes 0xF000#16 0x1000#16 (fun w => .jp (fieldNNN w)) ∧
  ∀ (nnn : Addr) (s : State), ∃ t, exec (.jp nnn) s = .next t ∧ t.pc.toNat = nnn.toNat ∧ Frame [.pc] s t ∧
    (t.fetch = none ↔ nnn = 0xFFF#12)

/-- R107: the sum of V0 and nnn, not reduced (the spec's D19, log 16). -/
def Obligations.JumpV0AddsV0 : Prop :=
  RowDecodes 0xF000#16 0xB000#16 (fun w => .jpV0 (fieldNNN w)) ∧
  ∀ (nnn : Addr) (s : State), ∃ t, exec (.jpV0 nnn) s = .next t ∧ t.pc.toNat = (s.reg 0).toNat + nnn.toNat ∧
    Frame [.pc] s t

/-- R102: a call with room on the stack pushes pc, the return address, and jumps. -/
def Obligations.CallPushesTheReturnAddress : Prop :=
  RowDecodes 0xF000#16 0x2000#16 (fun w => .call (fieldNNN w)) ∧
  ∀ (nnn : Addr) (s : State) (j : Fin 16), s.SP.val = j.val → ∃ t, exec (.call nnn) s = .next t ∧
    t.stack[j] = s.pc ∧ (∀ k : Fin 16, k ≠ j → t.stack[k] = s.stack[k]) ∧ t.SP.val = s.SP.val + 1 ∧
    t.pc.toNat = nnn.toNat ∧ Frame [.stack, .SP, .pc] s t

/-- R100: a return with a live entry pops it into pc; the entry keeps its value (the spec's D13, log 14). -/
def Obligations.RetPopsTheReturnAddress : Prop :=
  ∀ (s : State) (j : Fin 16), s.SP.val = j.val + 1 → ∃ t, exec .ret s = .next t ∧
    t.pc = s.stack[j] ∧ t.SP.val = s.SP.val - 1 ∧ Frame [.SP, .pc] s t

/-- R100, R102, R211, R212: a call on a full stack and a return on an empty one are fatal and write only the status and the fault
record. -/
def Obligations.StackDepthViolationsAreFatal : Prop :=
  ∀ s : State, (∀ nnn, s.SP.val = 16 → TakesFault (.call nnn) s .stackOverflow) ∧
    (s.SP.val = 0 → TakesFault .ret s .stackUnderflow)

/-- R108: whatever happens between a call and its return, if it leaves the stack as the call did, the return restores pc and SP. -/
def Obligations.RetAfterCallRestoresPc : Prop :=
  ∀ (nnn : Addr) (s t u : State), s.SP.val < 16 → exec (.call nnn) s = .next t → u.stack = t.stack → u.SP = t.SP →
    ∃ v, exec .ret u = .next v ∧ v.pc = s.pc ∧ v.SP = s.SP

/-- R102: calls up to depth 16 succeed, and the next is fatal. -/
def Obligations.SixteenCallsSucceedThenOverflow : Prop :=
  ∀ (targets : List Addr) (s : State), s.SP.val + targets.length = 16 →
    ∃ t, execAll (targets.map .call) s = .next t ∧ t.SP.val = 16 ∧ t.status = s.status ∧
      ∀ nnn, TakesFault (.call nnn) t .stackOverflow

/-- R103 and R104, whole: skips on an immediate. -/
def Obligations.SkipsOnImmediate : Prop :=
  RowDecodes 0xF000#16 0x3000#16 (fun w => .seImm (fieldX w) (fieldNN w)) ∧
  RowDecodes 0xF000#16 0x4000#16 (fun w => .sneImm (fieldX w) (fieldNN w)) ∧
  ∀ (x : Reg) (nn : Byte) (s : State),
    WritesPc (.seImm x nn) s (if s.reg x = nn then s.pc + 2 else s.pc) ∧
    WritesPc (.sneImm x nn) s (if s.reg x = nn then s.pc else s.pc + 2)

/-- R105, R106: skips on two registers (the low nibble of the encoding is checked: the spec's D9, log 13). -/
def Obligations.SkipsOnRegisters : Prop :=
  RowDecodes 0xF00F#16 0x5000#16 (fun w => .seReg (fieldX w) (fieldY w)) ∧
  RowDecodes 0xF00F#16 0x9000#16 (fun w => .sneReg (fieldX w) (fieldY w)) ∧
  ∀ (x y : Reg) (s : State),
    WritesPc (.seReg x y) s (if s.reg x = s.reg y then s.pc + 2 else s.pc) ∧
    WritesPc (.sneReg x y) s (if s.reg x = s.reg y then s.pc else s.pc + 2)

/-! ### ALU -/

/-- R121, R122 and R123, whole: loads and the flag-free addition. -/
def Obligations.LoadsAndAddImmediate : Prop :=
  RowDecodes 0xF000#16 0x6000#16 (fun w => .ldImm (fieldX w) (fieldNN w)) ∧
  RowDecodes 0xF000#16 0x7000#16 (fun w => .addImm (fieldX w) (fieldNN w)) ∧
  RowDecodes 0xF00F#16 0x8000#16 (fun w => .ldReg (fieldX w) (fieldY w)) ∧
  ∀ (x y : Reg) (nn : Byte) (s : State),
    WritesReg (.ldImm x nn) s x nn ∧ WritesReg (.addImm x nn) s x (s.reg x + nn) ∧ WritesReg (.ldReg x y) s x (s.reg y)

/-- R124, R125 and R126, whole: bitwise logic, which leaves VF alone unless it is the destination. -/
def Obligations.BitwiseLogic : Prop :=
  RowDecodes 0xF00F#16 0x8001#16 (fun w => .or (fieldX w) (fieldY w)) ∧
  RowDecodes 0xF00F#16 0x8002#16 (fun w => .and (fieldX w) (fieldY w)) ∧
  RowDecodes 0xF00F#16 0x8003#16 (fun w => .xor (fieldX w) (fieldY w)) ∧
  ∀ (x y : Reg) (s : State),
    WritesReg (.or x y) s x (s.reg x ||| s.reg y) ∧ WritesReg (.and x y) s x (s.reg x &&& s.reg y) ∧
    WritesReg (.xor x y) s x (s.reg x ^^^ s.reg y)

/-- R127: sum mod 256 and carry, from the values before the instruction; with x = F the sum stays (the spec's D4, log 9). -/
def Obligations.AddSetsCarry : Prop :=
  RowDecodes 0xF00F#16 0x8004#16 (fun w => .addReg (fieldX w) (fieldY w)) ∧
  ∀ (x y : Reg) (s : State), WritesRegAndFlag (.addReg x y) s x (s.reg x + s.reg y)
    (if (s.reg x).toNat + (s.reg y).toNat > 255 then 1 else 0)

/-- R128, R130: difference mod 256 and no borrow, from the values before the instruction; with x = F the difference stays (the
spec's D4, log 9). -/
def Obligations.SubtractionsSetNoBorrow : Prop :=
  RowDecodes 0xF00F#16 0x8005#16 (fun w => .sub (fieldX w) (fieldY w)) ∧
  RowDecodes 0xF00F#16 0x8007#16 (fun w => .subn (fieldX w) (fieldY w)) ∧
  ∀ (x y : Reg) (s : State),
    WritesRegAndFlag (.sub x y) s x (s.reg x - s.reg y) (if (s.reg y).toNat ≤ (s.reg x).toNat then 1 else 0) ∧
    WritesRegAndFlag (.subn x y) s x (s.reg y - s.reg x) (if (s.reg x).toNat ≤ (s.reg y).toNat then 1 else 0)

/-- R129, R131: shifts by one of V[x], whatever y is, with the dropped bit in VF; with x = F the shifted value stays (the spec's
D4, log 9). -/
def Obligations.ShiftsSetTheDroppedBit : Prop :=
  RowDecodes 0xF00F#16 0x8006#16 (fun w => .shr (fieldX w) (fieldY w)) ∧
  RowDecodes 0xF00F#16 0x800E#16 (fun w => .shl (fieldX w) (fieldY w)) ∧
  ∀ (x y : Reg) (s : State),
    WritesRegAndFlag (.shr x y) s x (BitVec.ofNat 8 ((s.reg x).toNat / 2)) (BitVec.ofNat 8 ((s.reg x).toNat % 2)) ∧
    WritesRegAndFlag (.shl x y) s x (BitVec.ofNat 8 ((s.reg x).toNat * 2 % 256))
      (BitVec.ofNat 8 ((s.reg x).toNat / 128))

/-- R132, R13: V[x] gets the free draw masked by nn, and the draw is used up (`Config.rnd` is a free value, log 2). -/
def Obligations.RndMasksTheDraw : Prop :=
  RowDecodes 0xF000#16 0xC000#16 (fun w => .rnd (fieldX w) (fieldNN w)) ∧
  ∀ (x : Reg) (nn : Byte) (s : State), ∃ t, exec (.rnd x nn) s = .next t ∧ t.reg x = Config.rnd s.draws &&& nn ∧
    t.draws = s.draws + 1 ∧ (nn = 0 → t.reg x = 0) ∧ (nn = 0xFF → t.reg x = Config.rnd s.draws) ∧
    RegFrame [x] s t ∧ Frame [.V, .draws] s t

/-! ### Index register and memory -/

/-- R150, R151 and R152, whole: the three writers of I. -/
def Obligations.IndexRegisterWrites : Prop :=
  RowDecodes 0xF000#16 0xA000#16 (fun w => .ldI (fieldNNN w)) ∧
  RowDecodes 0xF0FF#16 0xF01E#16 (fun w => .addI (fieldX w)) ∧
  RowDecodes 0xF0FF#16 0xF029#16 (fun w => .ldF (fieldX w)) ∧
  ∀ (nnn : Addr) (x : Reg) (s : State),
    (∃ t, exec (.ldI nnn) s = .next t ∧ t.I.toNat = nnn.toNat ∧ Frame [.I] s t) ∧
    (∃ t, exec (.addI x) s = .next t ∧ t.I.toNat = (s.I.toNat + (s.reg x).toNat) % 4096 ∧ Frame [.I] s t) ∧
    (∃ t, exec (.ldF x) s = .next t ∧ t.I.toNat = (s.reg x).toNat * 5 ∧ Frame [.I] s t)

/-- R153: three digits that make up V[x] are stored at I, I+1, I+2, and no other byte changes (range check: the spec's D3, log
7). -/
def Obligations.LdBStoresTheDecimalDigits : Prop :=
  RowDecodes 0xF0FF#16 0xF033#16 (fun w => .ldB (fieldX w)) ∧
  ∀ (x : Reg) (s : State), s.I.toNat + 2 ≤ 0xFFF → ∃ t, exec (.ldB x) s = .next t ∧
    (t.byte s.base).toNat = (s.reg x).toNat / 100 ∧ (t.byte (s.base + 1)).toNat = (s.reg x).toNat / 10 % 10 ∧
    (t.byte (s.base + 2)).toNat = (s.reg x).toNat % 10 ∧
    (s.reg x).toNat = 100 * (t.byte s.base).toNat + 10 * (t.byte (s.base + 1)).toNat + (t.byte (s.base + 2)).toNat ∧
    MemFrame s.base 3 s t ∧ Frame [.mem] s t

/-- R154: V0 to V[x] are stored at I and up, no other byte changes, and I stays (the spec's D3 and D8, logs 7 and 12). -/
def Obligations.LdStoreStoresTheRegisters : Prop :=
  RowDecodes 0xF0FF#16 0xF055#16 (fun w => .ldStore (fieldX w)) ∧
  ∀ (x : Reg) (s : State), s.I.toNat + x.val ≤ 0xFFF → ∃ t, exec (.ldStore x) s = .next t ∧
    (∀ r : Reg, r ≤ x → t.byte (s.base + r.val) = s.reg r) ∧ MemFrame s.base (x.val + 1) s t ∧ Frame [.mem] s t

/-- R155: V0 to V[x] are loaded from I and up, the other registers and all of memory stay, and I stays (the spec's D3 and D8, logs
7 and 12). -/
def Obligations.LdLoadLoadsTheRegisters : Prop :=
  RowDecodes 0xF0FF#16 0xF065#16 (fun w => .ldLoad (fieldX w)) ∧
  ∀ (x : Reg) (s : State), s.I.toNat + x.val ≤ 0xFFF → ∃ t, exec (.ldLoad x) s = .next t ∧
    (∀ r : Reg, r ≤ x → t.reg r = s.byte (s.I.toNat + r.val)) ∧ (∀ r : Reg, x < r → t.reg r = s.reg r) ∧
    Frame [.V] s t

/-- R51, R153, R154, R155, R171: a transfer or sprite that reaches past 0xFFF takes MemRange and writes nothing else (the spec's
D3, log 7). -/
def Obligations.TransfersPastMemoryTakeMemRange : Prop :=
  ∀ (x y : Reg) (n : Nibble) (s : State),
    (0xFFF < s.I.toNat + 2 → TakesFault (.ldB x) s .memRange) ∧
    (0xFFF < s.I.toNat + x.val → TakesFault (.ldStore x) s .memRange ∧ TakesFault (.ldLoad x) s .memRange) ∧
    (0 < n.toNat → 0xFFF < s.I.toNat + n.toNat - 1 → TakesFault (.drw x y n) s .memRange)

/-- R154, R155: registers stored by Fx55 are restored by Fx65 from the same I. -/
def Obligations.LoadAfterStoreRestoresRegisters : Prop :=
  ∀ (x : Reg) (s t u : State), s.I.toNat + x.val ≤ 0xFFF → exec (.ldStore x) s = .next t → u.mem = t.mem → u.I = s.I →
    ∃ v, exec (.ldLoad x) u = .next v ∧ ∀ r : Reg, r ≤ x → v.reg r = s.reg r

/-- R61: a word stored by Fx55 is what a later fetch at its address reads. -/
def Obligations.FetchSeesStoredWord : Prop :=
  ∀ (x : Reg) (s t u : State) (j k : Reg), s.I.toNat + x.val ≤ 0xFFF → k ≤ x → k.val = j.val + 1 →
    exec (.ldStore x) s = .next t → u.mem = t.mem → u.pc.toNat = s.I.toNat + j.val →
    ∃ w, u.fetch = some w ∧ w.toNat = (s.reg j).toNat * 256 + (s.reg k).toNat

/-! ### Display -/

/-- R170, whole: every pixel off, nothing else changed. -/
def Obligations.ClsClearsTheDisplay : Prop :=
  decode 0x00E0#16 = .cls ∧
  ∀ s : State, ∃ t, exec .cls s = .next t ∧ (∀ px py, t.pixel px py = false) ∧ Frame [.pix] s t

/-- R171, R172, R173: a sprite in memory inverts exactly the pixels under its 1 bits, wrapping at both edges, and VF is 1 exactly
when one of them is off afterwards (the spec's D3, D5 and D6, logs 7, 10 and 11). -/
def Obligations.DrwXorsTheSpriteAndReportsCollision : Prop :=
  RowDecodes 0xF000#16 0xD000#16 (fun w => .drw (fieldX w) (fieldY w) (fieldN w)) ∧
  ∀ (x y : Reg) (n : Nibble) (s : State), (n.toNat = 0 ∨ s.I.toNat + n.toNat - 1 ≤ 0xFFF) →
    ∃ t, exec (.drw x y n) s = .next t ∧
      (∀ px py, s.covers x y n px py → t.pixel px py = !s.pixel px py) ∧
      (∀ px py, ¬ s.covers x y n px py → t.pixel px py = s.pixel px py) ∧
      ((∃ px py, s.covers x y n px py ∧ t.pixel px py = false) → t.reg 15 = 1) ∧
      ((¬ ∃ px py, s.covers x y n px py ∧ t.pixel px py = false) → t.reg 15 = 0) ∧
      RegFrame [15] s t ∧ Frame [.V, .pix] s t

/-- R173, C4: the post-XOR-off rule equals the rule `a covered pixel was on before`. -/
def Obligations.CollisionMeansAPixelWasOn : Prop :=
  ∀ (x y : Reg) (n : Nibble) (s t : State), (n.toNat = 0 ∨ s.I.toNat + n.toNat - 1 ≤ 0xFFF) →
    exec (.drw x y n) s = .next t →
    (t.reg 15 = 1 ↔ ∃ px py, s.covers x y n px py ∧ s.pixel px py = true)

/-- R174.1, its first sentence: drawing twice, with the same coordinates, I and sprite bytes, restores the display. What R171 gives
for the second VF: it is 1 exactly when a covered pixel was off before the first draw (log 29). -/
def Obligations.DrawingTwiceRestoresTheDisplay : Prop :=
  ∀ (x y : Reg) (n : Nibble) (s t u : State), (n.toNat = 0 ∨ s.I.toNat + n.toNat - 1 ≤ 0xFFF) →
    exec (.drw x y n) s = .next t → t.reg x = s.reg x → t.reg y = s.reg y → exec (.drw x y n) t = .next u →
    u.pix = s.pix ∧ (u.reg 15 = 1 ↔ ∃ px py, s.covers x y n px py ∧ s.pixel px py = false)

/-- R174.1, its second sentence as printed, which the spec derives from R171: the second draw collides exactly when the sprite has a
1 bit. EXPECTED TO FAIL: over pixels that are all on, the second draw turns them on again (log 29). -/
def Obligations.SecondDrawCollidesWhenSpriteHasABit : Prop :=
  ∀ (x y : Reg) (n : Nibble) (s t u : State), (n.toNat = 0 ∨ s.I.toNat + n.toNat - 1 ≤ 0xFFF) →
    exec (.drw x y n) s = .next t → t.reg x = s.reg x → t.reg y = s.reg y → exec (.drw x y n) t = .next u →
    (u.reg 15 = 1 ↔ ∃ row col, row < n.toNat ∧ col < 8 ∧ (s.byte (s.base + row)).getLsbD (7 - col) = true)

/-! ### Timers and keys -/

/-- R192 and R194, whole: DT is read and written. -/
def Obligations.DelayTimerIsReadAndWritten : Prop :=
  RowDecodes 0xF0FF#16 0xF007#16 (fun w => .ldVxDt (fieldX w)) ∧
  RowDecodes 0xF0FF#16 0xF015#16 (fun w => .ldDt (fieldX w)) ∧
  ∀ (x : Reg) (s : State), WritesReg (.ldVxDt x) s x s.DT ∧
    ∃ t, exec (.ldDt x) s = .next t ∧ t.DT = s.reg x ∧ Frame [.DT] s t

/-- R195, R28: ST is written, and `sound_active` is at once whether it is nonzero. -/
def Obligations.SoundTimerDrivesSoundActive : Prop :=
  RowDecodes 0xF0FF#16 0xF018#16 (fun w => .ldSt (fieldX w)) ∧
  ∀ (x : Reg) (s : State), ∃ t, exec (.ldSt x) s = .next t ∧ t.ST = s.reg x ∧
    (t.soundActive = true ↔ s.reg x ≠ 0) ∧ Frame [.ST] s t

/-- R190, R191: a skip on key V[x], for V[x] in 0..15; the latch is not changed. -/
def Obligations.SkipsOnAKey : Prop :=
  RowDecodes 0xF0FF#16 0xE09E#16 (fun w => .skp (fieldX w)) ∧
  RowDecodes 0xF0FF#16 0xE0A1#16 (fun w => .sknp (fieldX w)) ∧
  ∀ (x : Reg) (s : State) (k : KeyIx), (s.reg x).toNat = k.val →
    WritesPc (.skp x) s (if s.key[k] = true then s.pc + 2 else s.pc) ∧
    WritesPc (.sknp x) s (if s.key[k] = true then s.pc else s.pc + 2)

/-- R190, R191, R211: a key number above 15 is fatal (the spec's D7, log 8). -/
def Obligations.KeyNumberAboveFifteenIsFatal : Prop :=
  ∀ (x : Reg) (s : State), 15 < (s.reg x).toNat → TakesFault (.skp x) s .keyRange ∧ TakesFault (.sknp x) s .keyRange

/-- R193: with a key pressed, the lowest goes to V[x] and pc is past the instruction; the latch keeps it (the spec's D15, log
28). -/
def Obligations.KeyWaitTakesTheLowestKey : Prop :=
  RowDecodes 0xF0FF#16 0xF00A#16 (fun w => .ldVxK (fieldX w)) ∧
  ∀ (x : Reg) (s : State) (k : KeyIx), s.key[k] = true → (∀ j : KeyIx, j < k → s.key[j] = false) →
    ∃ t, exec (.ldVxK x) s = .next t ∧ (t.reg x).toNat = k.val ∧ RegFrame [x] s t ∧ Frame [.V] s t

/-- R193, R226: with no key pressed, a step that runs Fx0A leaves the core as it was, pc included, so it runs again. (The closing
of the load port is the model's own, log 20; that no listed event means a CPU step: log 1.) -/
def Obligations.KeyWaitRunsAgainWithNoKey : Prop :=
  ∀ (x : Reg) (s : State), (∀ j : KeyIx, s.key[j] = false) → s.status = .running → s.events = [] →
    s.fetch = some (encode (.ldVxK x)) → ∃ t, step s = .next t ∧ Frame [.loadOpen] s t

/-! ### Host moves -/

/-- R219: n ticks of a Running core count each timer down by n, never below 0, and change nothing else; they do not touch what
follows them. (R219 states one tick; that ticks are listed events, each taken off the list by its step: the model's choice, log
1.) -/
def Obligations.TicksCountTheTimersDown : Prop :=
  ∀ (n : Nat) (s : State) (rest : List Event), s.status = .running → s.events = List.replicate n .tick ++ rest →
    ∃ t, core.run n s = .next t ∧ t.DT.toNat = s.DT.toNat - n ∧ t.ST.toNat = s.ST.toNat - n ∧ t.events = rest ∧
      Frame [.DT, .ST, .events] s t

/-- R210, R221, R222, R223: a host key write changes its key only, stop changes the status only, and a renderer read changes
nothing, while Running. (That each takes its event off the list: log 1.) -/
def Obligations.HostMovesChangeOnlyTheirOwn : Prop :=
  ∀ (s : State) (k : KeyIx) (rest : List Event), s.status = .running →
    (s.events = .keyDown k :: rest → ∃ t, step s = .next t ∧ t.key[k] = true ∧
      (∀ j : KeyIx, j ≠ k → t.key[j] = s.key[j]) ∧ t.events = rest ∧ Frame [.key, .events] s t) ∧
    (s.events = .keyRelease k :: rest → ∃ t, step s = .next t ∧ t.key[k] = false ∧
      (∀ j : KeyIx, j ≠ k → t.key[j] = s.key[j]) ∧ t.events = rest ∧ Frame [.key, .events] s t) ∧
    (s.events = .stop :: rest → ∃ t, step s = .next t ∧ t.status = .stopped ∧ t.events = rest ∧
      Frame [.status, .events] s t) ∧
    (s.events = .render :: rest → ∃ t, step s = .next t ∧ t.events = rest ∧ Frame [.events] s t)

/-- R244, R11, R65: `rst` in any state gives the state of construction with the core's own FONT and an empty image: that FONT at
[0, 80), 0 elsewhere, every other part at its reset value; the parameter and the model's record of the environment stay (logs 3
and 21; that the event leaves the list: log 1). -/
def Obligations.RstConstructsAgain : Prop :=
  ∀ (s : State) (rest : List Event), s.events = .rst :: rest → ∃ u t, State.construct s.font [] = .next u ∧
    step s = .next t ∧ t = { u with events := rest, draws := s.draws, diags := s.diags } ∧
    (∀ a, (h : a < 80) → t.byte a = s.font[a]) ∧ (∀ a, 80 ≤ a → t.byte a = 0) ∧ t.mem.wf = true ∧ t.font = s.font ∧
    t = { State.reset with mem := t.mem, font := s.font, events := rest, draws := s.draws, diags := s.diags }

/-- R227, R241: before the first step a load-port write places one byte of the image and changes nothing else; the byte that would
make the image 3584 long is refused, and after the first step, while not Running, or below
0x200 the host has no such move (log 20; that the event leaves the list: log 1). -/
def Obligations.LoadPortWritesTheImageBeforeTheFirstStep : Prop :=
  ∀ (s : State) (a : Addr) (d : Byte) (rest : List Event), s.events = .load a d :: rest →
    (s.status = .running → s.loadOpen = true → 0x200 ≤ a.toNat → a.toNat ≤ 0xFFE → ∃ t, step s = .next t ∧
      t.byte a.toNat = d ∧ MemFrame a.toNat 1 s t ∧ t.events = rest ∧ Frame [.mem, .events] s t) ∧
    (s.status = .running → s.loadOpen = true → a.toNat = 0xFFF → step s = .refused (.imageTooLong 3584)) ∧
    (s.loadOpen = false ∨ s.status ≠ .running ∨ a.toNat < 0x200 → step s = .fault (.loadNotAllowed a))

/-! ### The whole machine -/

/-- R36: the invariant holds at reset. -/
def Obligations.InvariantHoldsAtReset : Prop := State.reset.Inv

/-- R24, R25, R32, R212 and the canonical form of memory: every event keeps the invariant. -/
def Obligations.EveryStepKeepsTheInvariant : Prop := ∀ s t : State, s.Inv → step s = .next t → t.Inv

/-- R22, R24, R26, R27, R29, R30, R50: each instruction changes only the parts the spec names it a writer of. -/
def Obligations.InstructionsChangeOnlyTheirParts : Prop :=
  ∀ (i : Instr) (s t : State), exec i s = .next t → Frame i.mayChange s t ∧ RegFrame i.writesV s t

/-- R22: the result of an instruction depends on no general register but those it is listed to read; every other register is
either written with the same value or kept. -/
def Obligations.InstructionsReadOnlyTheirRegisters : Prop :=
  ∀ (i : Instr) (s s' t t' : State), s' = { s with V := s'.V } → (∀ r ∈ i.readsV, s'.reg r = s.reg r) →
    exec i s = .next t → exec i s' = .next t' →
    t' = { t with V := t'.V } ∧ ∀ r, t'.reg r = t.reg r ∨ (t.reg r = s.reg r ∧ t'.reg r = s'.reg r)

/-- R195, R218: no instruction reads ST; two states that differ in ST only go to two that differ in ST only, and only Fx18 makes
them agree. -/
def Obligations.NoInstructionReadsTheSoundTimer : Prop :=
  ∀ (i : Instr) (s t : State) (st : Byte), exec i s = .next t → ∃ t', exec i { s with ST := st } = .next t' ∧
    t' = { t with ST := t'.ST } ∧ ((∃ x, i = .ldSt x ∧ t'.ST = t.ST) ∨ (t.ST = s.ST ∧ t'.ST = st))

/-- R50, R153, R154: a byte of memory changes only under Fx33 at I to I+2 and under Fx55 at I to I+x. -/
def Obligations.MemoryChangesOnlyUnderStores : Prop :=
  ∀ (i : Instr) (s t : State) (a : Nat), exec i s = .next t → t.byte a ≠ s.byte a →
    (∃ x, i = .ldB x ∧ s.base ≤ a ∧ a ≤ s.base + 2 ∧ a ≤ 0xFFF) ∨
    (∃ x, i = .ldStore x ∧ s.base ≤ a ∧ a ≤ s.base + x.val ∧ a ≤ 0xFFF)

/-- R211, R212, R214: an executing instruction halts exactly where the table of R211 says, with that code and its own address, and
then writes nothing else; where the table gives no cause it stays Running (codes: the spec's D11, log 18). -/
def Obligations.FaultsAreExactlyTheTabledOnes : Prop :=
  ∀ (i : Instr) (s : State), s.status = .running →
    (i.faultCause s ≠ .none → TakesFault i s (i.faultCause s)) ∧
    (i.faultCause s = .none → ∃ t, exec i s = .next t ∧ t.status = .running ∧ t.faultCode = s.faultCode ∧
      t.faultPc = s.faultPc)

/-- R245.1: at a parked state every CPU step after the first leaves the whole state unchanged. (That no listed event means a
CPU step: log 1.) -/
def Obligations.ParkedStateStaysAsItIs : Prop :=
  ∀ s : State, s.Parked → s.events = [] → s.loadOpen = false → step s = .next s
end

