-- ==== Sys2Proof/Laws/Decode.lean ====
section
/-! SUPPORT. The laws of the bit fields, of the assembled words and of the masks of the opcode map. -/

namespace Sys2Proof

/-! ### The fields of an assembled word -/

theorem toNat_asmNNN (c : Nat) (nnn : Addr) (hc : c < 16) : (asmNNN c nnn).toNat = c * 4096 + nnn.toNat := by
  have := nnn.isLt
  simp only [asmNNN, BitVec.toNat_ofNat]; omega

theorem toNat_asmXNN (c : Nat) (x : Reg) (nn : Nat) (hc : c < 16) (hn : nn < 256) :
    (asmXNN c x nn).toNat = c * 4096 + x.val * 256 + nn := by
  have := x.isLt
  simp only [asmXNN, BitVec.toNat_ofNat]; omega

theorem toNat_asmXYN (c : Nat) (x y : Reg) (n : Nat) (hc : c < 16) (hn : n < 16) :
    (asmXYN c x y n).toNat = c * 4096 + x.val * 256 + y.val * 16 + n := by
  have := x.isLt; have := y.isLt
  simp only [asmXYN, BitVec.toNat_ofNat]; omega

/-- A field read from a number with that field in place. -/
theorem fieldX_of (w : Word) (x : Reg) (h : w.toNat / 256 % 16 = x.val) : fieldX w = x := Fin.ext h

theorem fieldY_of (w : Word) (y : Reg) (h : w.toNat / 16 % 16 = y.val) : fieldY w = y := Fin.ext h

theorem fieldN_of (w : Word) (n : Nibble) (h : w.toNat % 16 = n.toNat) : fieldN w = n :=
  BitVec.eq_of_toNat_eq (by simpa [fieldN] using h)

theorem fieldNN_of (w : Word) (nn : Byte) (h : w.toNat % 256 = nn.toNat) : fieldNN w = nn :=
  BitVec.eq_of_toNat_eq (by simpa [fieldNN] using h)

theorem fieldNNN_of (w : Word) (nnn : Addr) (h : w.toNat % 4096 = nnn.toNat) : fieldNNN w = nnn :=
  BitVec.eq_of_toNat_eq (by simpa [fieldNNN] using h)

theorem toNat_fieldX (w : Word) : (fieldX w).val = w.toNat / 256 % 16 := rfl

theorem toNat_fieldY (w : Word) : (fieldY w).val = w.toNat / 16 % 16 := rfl

theorem toNat_fieldN (w : Word) : (fieldN w).toNat = w.toNat % 16 := by simp [fieldN]

theorem toNat_fieldNN (w : Word) : (fieldNN w).toNat = w.toNat % 256 := by simp [fieldNN]

theorem toNat_fieldNNN (w : Word) : (fieldNNN w).toNat = w.toNat % 4096 := by simp [fieldNNN]

/-! What the decoder reads back from an assembled word; `hc` and `hn` say that class and sub-opcode fit their fields. -/

theorem fieldC_asmNNN (c : Nat) (nnn : Addr) (hc : c < 16) : fieldC (asmNNN c nnn) = c := by
  have := toNat_asmNNN c nnn hc; have := nnn.isLt
  unfold fieldC; omega

theorem fieldNNN_asmNNN (c : Nat) (nnn : Addr) (hc : c < 16) : fieldNNN (asmNNN c nnn) = nnn := by
  have := toNat_asmNNN c nnn hc; have := nnn.isLt
  exact fieldNNN_of _ _ (by omega)

theorem fieldC_asmXNN (c : Nat) (x : Reg) (nn : Nat) (hc : c < 16) (hn : nn < 256) : fieldC (asmXNN c x nn) = c := by
  have := toNat_asmXNN c x nn hc hn; have := x.isLt
  unfold fieldC; omega

theorem fieldX_asmXNN (c : Nat) (x : Reg) (nn : Nat) (hc : c < 16) (hn : nn < 256) : fieldX (asmXNN c x nn) = x := by
  have := toNat_asmXNN c x nn hc hn; have := x.isLt
  exact fieldX_of _ _ (by omega)

theorem subNN_asmXNN (c : Nat) (x : Reg) (nn : Nat) (hc : c < 16) (hn : nn < 256) : subNN (asmXNN c x nn) = nn := by
  have := toNat_asmXNN c x nn hc hn; have := x.isLt
  unfold subNN; omega

theorem fieldNN_asmXNN (c : Nat) (x : Reg) (nn : Byte) (hc : c < 16) : fieldNN (asmXNN c x nn.toNat) = nn := by
  have := toNat_asmXNN c x nn.toNat hc nn.isLt; have := x.isLt
  exact fieldNN_of _ _ (by omega)

theorem fieldC_asmXYN (c : Nat) (x y : Reg) (n : Nat) (hc : c < 16) (hn : n < 16) : fieldC (asmXYN c x y n) = c := by
  have := toNat_asmXYN c x y n hc hn; have := x.isLt; have := y.isLt
  unfold fieldC; omega

theorem fieldX_asmXYN (c : Nat) (x y : Reg) (n : Nat) (hc : c < 16) (hn : n < 16) : fieldX (asmXYN c x y n) = x := by
  have := toNat_asmXYN c x y n hc hn; have := x.isLt; have := y.isLt
  exact fieldX_of _ _ (by omega)

theorem fieldY_asmXYN (c : Nat) (x y : Reg) (n : Nat) (hc : c < 16) (hn : n < 16) : fieldY (asmXYN c x y n) = y := by
  have := toNat_asmXYN c x y n hc hn; have := x.isLt; have := y.isLt
  exact fieldY_of _ _ (by omega)

theorem subN_asmXYN (c : Nat) (x y : Reg) (n : Nat) (hc : c < 16) (hn : n < 16) : subN (asmXYN c x y n) = n := by
  have := toNat_asmXYN c x y n hc hn; have := x.isLt; have := y.isLt
  unfold subN; omega

theorem fieldN_asmXYN (c : Nat) (x y : Reg) (n : Nibble) (hc : c < 16) : fieldN (asmXYN c x y n.toNat) = n := by
  have := toNat_asmXYN c x y n.toNat hc n.isLt; have := x.isLt; have := y.isLt
  exact fieldN_of _ _ (by omega)

/-! ### Masks -/

theorem and_mask_F000 (w : Word) : (w &&& 0xF000#16).toNat = w.toNat / 4096 * 4096 := by
  have h1 : (w.toNat &&& 0xF000) / 2 ^ 12 = w.toNat / 4096 % 16 := by
    rw [Nat.and_div_two_pow]; exact Nat.and_two_pow_sub_one_eq_mod _ 4
  have h2 : (w.toNat &&& 0xF000) % 2 ^ 12 = 0 := by rw [Nat.and_mod_two_pow]; exact Nat.and_zero _
  have := w.isLt
  rw [BitVec.toNat_and]
  show w.toNat &&& 0xF000 = _
  omega

theorem and_mask_F00F (w : Word) : (w &&& 0xF00F#16).toNat = w.toNat / 4096 * 4096 + w.toNat % 16 := by
  have h1 : (w.toNat &&& 0xF00F) / 2 ^ 12 = w.toNat / 4096 % 16 := by
    rw [Nat.and_div_two_pow]; exact Nat.and_two_pow_sub_one_eq_mod _ 4
  have h2 : (w.toNat &&& 0xF00F) % 2 ^ 12 = w.toNat % 16 := by
    rw [Nat.and_mod_two_pow]
    have := Nat.and_two_pow_sub_one_eq_mod (w.toNat % 4096) 4
    show w.toNat % 4096 &&& (2 ^ 4 - 1) = _
    omega
  have := w.isLt
  rw [BitVec.toNat_and]
  show w.toNat &&& 0xF00F = _
  omega

theorem and_mask_F0FF (w : Word) : (w &&& 0xF0FF#16).toNat = w.toNat / 4096 * 4096 + w.toNat % 256 := by
  have h1 : (w.toNat &&& 0xF0FF) / 2 ^ 12 = w.toNat / 4096 % 16 := by
    rw [Nat.and_div_two_pow]; exact Nat.and_two_pow_sub_one_eq_mod _ 4
  have h2 : (w.toNat &&& 0xF0FF) % 2 ^ 12 = w.toNat % 256 := by
    rw [Nat.and_mod_two_pow]
    have := Nat.and_two_pow_sub_one_eq_mod (w.toNat % 4096) 8
    show w.toNat % 4096 &&& (2 ^ 8 - 1) = _
    omega
  have := w.isLt
  rw [BitVec.toNat_and]
  show w.toNat &&& 0xF0FF = _
  omega

theorem and_mask_FFFF (w : Word) : w &&& 0xFFFF#16 = w := by
  have : (0xFFFF#16) = BitVec.allOnes 16 := rfl
  rw [this, BitVec.and_allOnes]

/-- A word lies in a row `c...` exactly where its class is c. -/
theorem and_F000_beq (w m : Word) (c : Nat) (hm : m.toNat = c * 4096) :
    (w &&& 0xF000#16 == m) = decide (fieldC w = c) := by
  rw [Bool.eq_iff_iff, beq_iff_eq, decide_eq_true_iff, ← BitVec.toNat_inj, hm, and_mask_F000]
  unfold fieldC; omega

/-- A word lies in a row `c..n` exactly where its class is c and its low nibble n. -/
theorem and_F00F_beq (w m : Word) (c n : Nat) (hm : m.toNat = c * 4096 + n) (hn : n < 16) :
    (w &&& 0xF00F#16 == m) = (decide (fieldC w = c) && decide (subN w = n)) := by
  rw [Bool.eq_iff_iff, beq_iff_eq, Bool.and_eq_true, decide_eq_true_iff, decide_eq_true_iff, ← BitVec.toNat_inj, hm,
    and_mask_F00F]
  unfold fieldC subN; omega

/-- A word lies in a row `c.nn` exactly where its class is c and its low byte nn. -/
theorem and_F0FF_beq (w m : Word) (c n : Nat) (hm : m.toNat = c * 4096 + n) (hn : n < 256) :
    (w &&& 0xF0FF#16 == m) = (decide (fieldC w = c) && decide (subNN w = n)) := by
  rw [Bool.eq_iff_iff, beq_iff_eq, Bool.and_eq_true, decide_eq_true_iff, decide_eq_true_iff, ← BitVec.toNat_inj, hm,
    and_mask_F0FF]
  unfold fieldC subNN; omega

/-- A word is the two bytes it is stored as (R52). -/
theorem wordOf_bytes (w : Word) : wordOf (highByte w) (lowByte w) = w := by
  apply BitVec.eq_of_toNat_eq
  have := w.isLt
  simp only [wordOf, highByte, lowByte, BitVec.toNat_ofNat]; omega

end Sys2Proof
end

