-- ==== Sys2Proof/Laws/Display.lean ====
section
/-! SUPPORT. The laws of the XOR-plot unit: what plotting one pixel, one row and one sprite does to each pixel and to the hit. -/

namespace Sys2Proof.Machine

/-- A toggle inverts its pixel and no other. -/
theorem Display.at_toggle (d : Display) (px qx : Fin 64) (py qy : Fin 32) :
    Display.at (Display.toggle d px py) qx qy = (Display.at d qx qy ^^ (decide (px = qx) && decide (py = qy))) := by
  unfold Display.at Display.toggle
  by_cases hy : py = qy
  · subst hy
    by_cases hx : px = qx
    · subst hx; simp
    · have hx' : px.val ≠ qx.val := fun e => hx (Fin.ext e)
      simp [hx, hx']
  · have hy' : py.val ≠ qy.val := fun e => hy (Fin.ext e)
    simp [hy, hy']

/-- Two displays with the same pixels are the same. -/
theorem Display.ext_at (d e : Display) (h : ∀ px py, Display.at d px py = Display.at e px py) : d = e := by
  apply Vector.ext; intro i hi
  apply Vector.ext; intro j hj
  exact h ⟨j, hj⟩ ⟨i, hi⟩

/-- A pixel after `plotPixel`, and the hit: it was on before. -/
theorem plotPixel_at (px qx : Fin 64) (py qy : Fin 32) (c : Display × Bool) :
    Display.at (plotPixel px py c).1 qx qy = (Display.at c.1 qx qy ^^ (decide (px = qx) && decide (py = qy))) :=
  Display.at_toggle c.1 px qx py qy

theorem plotPixel_hit (px : Fin 64) (py : Fin 32) (c : Display × Bool) :
    (plotPixel px py c).2 = (c.2 || Display.at c.1 px py) := by
  simp [plotPixel, Display.at_toggle]

/-- Bit 7 - j of a sprite row is set for some column j of `[col, col+k)` drawn at column qx. -/
def RowBit (x0 : Nat) (s : Byte) (k col : Nat) (qx : Fin 64) : Prop :=
  ∃ j, col ≤ j ∧ j < col + k ∧ s.getLsbD (7 - j) = true ∧ columnIx (x0 + j) = qx

theorem RowBit_zero (x0 : Nat) (s : Byte) (col : Nat) (qx : Fin 64) : ¬ RowBit x0 s 0 col qx := by
  rintro ⟨j, h1, h2, -⟩; omega

theorem RowBit_succ (x0 : Nat) (s : Byte) (k col : Nat) (qx : Fin 64) :
    RowBit x0 s (k + 1) col qx ↔
      (s.getLsbD (7 - col) = true ∧ columnIx (x0 + col) = qx) ∨ RowBit x0 s k (col + 1) qx := by
  constructor
  · rintro ⟨j, h1, h2, h3, h4⟩
    by_cases hj : j = col
    · subst hj; exact .inl ⟨h3, h4⟩
    · exact .inr ⟨j, by omega, by omega, h3, h4⟩
  · rintro (⟨h3, h4⟩ | ⟨j, h1, h2, h3, h4⟩)
    · exact ⟨col, by omega, by omega, h3, h4⟩
    · exact ⟨j, by omega, by omega, h3, h4⟩

/-- Two of the eight columns of a row never meet. -/
theorem columns_ne (x0 i j : Nat) (hi : i < j) (hj : j < 8) : columnIx (x0 + i) ≠ columnIx (x0 + j) := by
  intro h
  have : (x0 + i) % 64 = (x0 + j) % 64 := congrArg Fin.val h
  omega

/-- Two of at most 32 rows of a sprite never meet. -/
theorem rows_ne (y0 i j : Nat) (hi : i < j) (hj : j < 32) : rowIx (y0 + i) ≠ rowIx (y0 + j) := by
  intro h
  have : (y0 + i) % 32 = (y0 + j) % 32 := congrArg Fin.val h
  omega

open Classical in
/-- What plotting the columns of one row does to each pixel. -/
theorem plotColumns_at (x0 : Nat) (py : Fin 32) (s : Byte) (k : Nat) : ∀ (col : Nat) (c : Display × Bool), col + k ≤ 8 →
    ∀ qx qy, Display.at (plotColumns x0 py s k col c).1 qx qy =
      (Display.at c.1 qx qy ^^ decide (RowBit x0 s k col qx ∧ py = qy)) := by
  induction k with
  | zero => intro col c _ qx qy; simp [plotColumns, RowBit_zero]
  | succ k ih =>
    intro col c hk qx qy
    rw [plotColumns, ih (col + 1) _ (by omega)]
    by_cases hb : s.getLsbD (7 - col) = true
    · rw [if_pos hb, plotPixel_at]
      by_cases hx : columnIx (x0 + col) = qx
      · have hno : ¬ RowBit x0 s k (col + 1) qx := by
          rintro ⟨j, h1, h2, -, h4⟩
          exact columns_ne x0 col j (by omega) (by omega) (hx.trans h4.symm)
        simp [RowBit_succ, hb, hx, hno]
      · simp [RowBit_succ, hx]
    · simp [hb, RowBit_succ]

open Classical in
/-- What plotting the columns of one row does to the hit. -/
theorem plotColumns_hit (x0 : Nat) (py : Fin 32) (s : Byte) (k : Nat) : ∀ (col : Nat) (c : Display × Bool), col + k ≤ 8 →
    ((plotColumns x0 py s k col c).2 = true ↔
      c.2 = true ∨ ∃ qx, RowBit x0 s k col qx ∧ Display.at c.1 qx py = true) := by
  induction k with
  | zero => intro col c _; simp [plotColumns, RowBit_zero]
  | succ k ih =>
    intro col c hk
    rw [plotColumns, ih (col + 1) _ (by omega)]
    by_cases hb : s.getLsbD (7 - col) = true
    · rw [if_pos hb, plotPixel_hit]
      simp only [plotPixel_at, Bool.or_eq_true, RowBit_succ, hb, true_and]
      have hne : ∀ qx, RowBit x0 s k (col + 1) qx → columnIx (x0 + col) ≠ qx := by
        rintro qx ⟨j, h1, h2, -, h4⟩ he
        exact columns_ne x0 col j (by omega) (by omega) (he.trans h4.symm)
      constructor
      · rintro ((h | h) | ⟨qx, h1, h2⟩)
        · exact .inl h
        · exact .inr ⟨_, .inl rfl, h⟩
        · refine .inr ⟨qx, .inr h1, ?_⟩
          simpa [hne qx h1] using h2
      · rintro (h | ⟨qx, h1 | h1, h2⟩)
        · exact .inl (.inl h)
        · exact .inl (.inr (by rw [h1]; exact h2))
        · refine .inr ⟨qx, h1, ?_⟩
          simpa [hne qx h1] using h2
    · simp [hb, RowBit_succ]

/-- Some row of the sprite has a 1 bit drawn at the pixel. -/
def SpriteBit (x0 y0 : Nat) (bs : List Byte) (qx : Fin 64) (qy : Fin 32) : Prop :=
  ∃ (r : Nat) (h : r < bs.length), RowBit x0 bs[r] 8 0 qx ∧ rowIx (y0 + r) = qy

theorem SpriteBit_nil (x0 y0 : Nat) (qx : Fin 64) (qy : Fin 32) : ¬ SpriteBit x0 y0 [] qx qy := by
  rintro ⟨r, h, -⟩; simp at h

theorem SpriteBit_cons (x0 y0 : Nat) (b : Byte) (bs : List Byte) (qx : Fin 64) (qy : Fin 32) :
    SpriteBit x0 y0 (b :: bs) qx qy ↔
      (RowBit x0 b 8 0 qx ∧ rowIx y0 = qy) ∨ SpriteBit x0 (y0 + 1) bs qx qy := by
  constructor
  · rintro ⟨r, h, h1, h2⟩
    cases r with
    | zero => exact .inl ⟨h1, h2⟩
    | succ r =>
      refine .inr ⟨r, by simpa using h, h1, ?_⟩
      rw [← h2]; congr 1; omega
  · rintro (⟨h1, h2⟩ | ⟨r, h, h1, h2⟩)
    · exact ⟨0, by simp, h1, h2⟩
    · refine ⟨r + 1, by simpa using h, h1, ?_⟩
      rw [← h2]; congr 1; omega

open Classical in
/-- What plotting a sprite of at most 32 rows does to each pixel: those under a 1 bit are inverted, the others kept. -/
theorem plotRows_at (x0 : Nat) (bs : List Byte) : ∀ (y0 : Nat) (c : Display × Bool), bs.length ≤ 32 →
    ∀ qx qy, Display.at (plotRows x0 y0 bs c).1 qx qy = (Display.at c.1 qx qy ^^ decide (SpriteBit x0 y0 bs qx qy)) := by
  induction bs with
  | nil => intro y0 c _ qx qy; simp [plotRows, SpriteBit_nil]
  | cons b bs ih =>
    intro y0 c hl qx qy
    simp only [List.length_cons] at hl
    rw [plotRows, ih (y0 + 1) _ (by omega), plotColumns_at x0 _ b 8 0 c (by omega)]
    by_cases hy : rowIx y0 = qy
    · have hno : ¬ SpriteBit x0 (y0 + 1) bs qx qy := by
        rintro ⟨r, h, -, h2⟩
        exact rows_ne y0 0 (r + 1) (by omega) (by omega) (by
          rw [Nat.add_zero, hy, ← h2]; congr 1; omega)
      simp [SpriteBit_cons, hy, hno]
    · simp [SpriteBit_cons, hy]

open Classical in
/-- What plotting a sprite of at most 32 rows does to the hit: it is raised where a pixel under a 1 bit was on. -/
theorem plotRows_hit (x0 : Nat) (bs : List Byte) : ∀ (y0 : Nat) (c : Display × Bool), bs.length ≤ 32 →
    ((plotRows x0 y0 bs c).2 = true ↔
      c.2 = true ∨ ∃ qx qy, SpriteBit x0 y0 bs qx qy ∧ Display.at c.1 qx qy = true) := by
  induction bs with
  | nil => intro y0 c _; simp [plotRows, SpriteBit_nil]
  | cons b bs ih =>
    intro y0 c hl
    simp only [List.length_cons] at hl
    rw [plotRows, ih (y0 + 1) _ (by omega), plotColumns_hit x0 _ b 8 0 c (by omega)]
    have hne : ∀ qx qy, SpriteBit x0 (y0 + 1) bs qx qy → rowIx y0 ≠ qy := by
      rintro qx qy ⟨r, h, -, h2⟩ he
      exact rows_ne y0 0 (r + 1) (by omega) (by omega) (by rw [Nat.add_zero, he, ← h2]; congr 1; omega)
    constructor
    · rintro ((h | ⟨qx, h1, h2⟩) | ⟨qx, qy, h1, h2⟩)
      · exact .inl h
      · exact .inr ⟨qx, _, (SpriteBit_cons ..).mpr (.inl ⟨h1, rfl⟩), h2⟩
      · refine .inr ⟨qx, qy, (SpriteBit_cons ..).mpr (.inr h1), ?_⟩
        rw [plotColumns_at x0 _ b 8 0 c (by omega)] at h2
        simpa [hne qx qy h1] using h2
    · rintro (h | ⟨qx, qy, h1, h2⟩)
      · exact .inl (.inl h)
      · rcases (SpriteBit_cons ..).mp h1 with ⟨h3, h4⟩ | h3
        · exact .inl (.inr ⟨qx, h3, by rw [h4]; exact h2⟩)
        · refine .inr ⟨qx, qy, h3, ?_⟩
          rw [plotColumns_at x0 _ b 8 0 c (by omega)]
          simpa [hne qx qy h3] using h2

/-- A cleared display has every pixel off. -/
theorem Display.at_clear (px : Fin 64) (py : Fin 32) : Display.at Display.clear px py = false := by
  simp [Display.at, Display.clear]

end Sys2Proof.Machine
end

