-- ==== Sys2Proof/Laws/Memory.lean ====
section
/-! SUPPORT. The laws of memory: read after write, and the canonical form is kept. -/

namespace Sys2Proof.Machine

theorem Memory.get_filter_ne (m : Memory) (a b : Nat) (h : b ≠ a) :
    Memory.get (m.filter (fun c => c.1 != a)) b = Memory.get m b := by
  induction m with
  | nil => rfl
  | cons c rest ih =>
    obtain ⟨k, v⟩ := c
    by_cases hk : k = a
    · have hb : ¬ b = k := fun e => h (e.trans hk)
      simp only [List.filter, hk, bne_self_eq_false, ih, Memory.get]
      simp [h]
    · simp only [List.filter, bne_iff_ne.mpr hk, Memory.get, ih]

theorem Memory.get_filter_self (m : Memory) (a : Nat) :
    Memory.get (m.filter (fun c => c.1 != a)) a = Memory.blank a := by
  induction m with
  | nil => rfl
  | cons c rest ih =>
    obtain ⟨k, v⟩ := c
    by_cases hk : k = a
    · simp only [List.filter, hk, bne_self_eq_false, ih]
    · have ha : ¬ a = k := fun e => hk e.symm
      simp only [List.filter, bne_iff_ne.mpr hk, Memory.get, ih, if_neg ha]

theorem Memory.get_insertCell (m : Memory) (a : Nat) (v : Byte) (h : ∀ c ∈ m, c.1 ≠ a) (b : Nat) :
    Memory.get (Memory.insertCell a v m) b = if b = a then v else Memory.get m b := by
  induction m with
  | nil => rfl
  | cons c rest ih =>
    obtain ⟨k, u⟩ := c
    have hk : k ≠ a := h (k, u) List.mem_cons_self
    have hr := ih (fun c hc => h c (List.mem_cons_of_mem _ hc))
    unfold Memory.insertCell
    split
    · simp only [Memory.get]
    · simp only [Memory.get, hr]
      by_cases hb : b = k
      · have hba : ¬ b = a := fun e => hk (hb.symm.trans e)
        simp [hb, hk]
      · simp [hb]

/-- A write changes the byte at its address and no other. -/
theorem Memory.get_put (m : Memory) (a : Nat) (v : Byte) (b : Nat) :
    (m.put a v).get b = if b = a then v else m.get b := by
  have hno : ∀ c ∈ m.filter (fun c => c.1 != a), c.1 ≠ a := fun c hc => by simpa using (List.mem_filter.mp hc).2
  unfold Memory.put
  by_cases hv : v = Memory.blank a
  · by_cases hb : b = a
    · simp [hv, hb, Memory.get_filter_self]
    · simp [hv, hb, Memory.get_filter_ne m a b hb]
  · by_cases hb : b = a
    · simp [hv, Memory.get_insertCell _ a v hno, hb]
    · simp [hv, Memory.get_insertCell _ a v hno, hb, Memory.get_filter_ne m a b hb]

/-- What `putBytes` stores, and that every other address reads as before. -/
theorem Memory.get_putBytes (bs : List Byte) : ∀ (m : Memory) (a b : Nat),
    (m.putBytes a bs).get b = if h : a ≤ b ∧ b < a + bs.length then bs[b - a]'(by omega) else m.get b := by
  induction bs with
  | nil => intro m a b; simp [Memory.putBytes]
  | cons v rest ih =>
    intro m a b
    simp only [Memory.putBytes, ih, Memory.get_put, List.length_cons]
    by_cases hb : b = a
    · subst hb; simp
    · by_cases hin : a + 1 ≤ b ∧ b < a + 1 + rest.length
      · have h2 : a ≤ b ∧ b < a + (rest.length + 1) := by omega
        have h3 : b - a = (b - (a + 1)) + 1 := by omega
        simp [hin, h2, h3]
      · have h2 : ¬ (a ≤ b ∧ b < a + (rest.length + 1)) := by omega
        rw [dif_neg hin, dif_neg h2, if_neg hb]

/-- Outside the stored range a store changes nothing. -/
theorem State.byte_storeBytes_of_outside (s : State) (a : Nat) (bs : List Byte) (b : Nat)
    (h : ¬ (a ≤ b ∧ b < a + bs.length)) : (s.storeBytes a bs).byte b = s.byte b := by
  simp [State.byte, State.storeBytes, Memory.get_putBytes, h]

/-- Inside the stored range the byte stored there is read. -/
theorem State.byte_storeBytes_of_inside (s : State) (a : Nat) (bs : List Byte) (j : Nat) (h : j < bs.length) :
    (s.storeBytes a bs).byte (a + j) = bs[j] := by
  have h1 : a ≤ a + j ∧ a + j < a + bs.length := by omega
  simp [State.byte, State.storeBytes, Memory.get_putBytes, h1]

/-! ### The canonical form -/

theorem Memory.mem_insertCell (m : Memory) (a : Nat) (v : Byte) (c : Host.Cell) :
    c ∈ Memory.insertCell a v m ↔ c = (a, v) ∨ c ∈ m := by
  induction m with
  | nil => simp [Memory.insertCell]
  | cons d rest ih =>
    obtain ⟨k, u⟩ := d
    unfold Memory.insertCell
    split
    · simp
    · simp [ih, or_left_comm]

theorem Memory.rising_cons (c : Host.Cell) (m : Memory) :
    Memory.rising (c :: m) = true ↔ (∀ d ∈ m, c.1 < d.1) ∧ Memory.rising m = true := by
  simp [Memory.rising]

theorem Memory.rising_filter (m : Memory) (p : Host.Cell → Bool) (h : Memory.rising m = true) :
    Memory.rising (m.filter p) = true := by
  induction m with
  | nil => rfl
  | cons c rest ih =>
    obtain ⟨h1, h2⟩ := (Memory.rising_cons c rest).mp h
    by_cases hp : p c = true
    · rw [List.filter_cons_of_pos hp, Memory.rising_cons]
      exact ⟨fun d hd => h1 d (List.mem_filter.mp hd).1, ih h2⟩
    · rw [List.filter_cons_of_neg hp]; exact ih h2

theorem Memory.rising_insertCell (m : Memory) (a : Nat) (v : Byte) (hno : ∀ c ∈ m, c.1 ≠ a)
    (h : Memory.rising m = true) : Memory.rising (Memory.insertCell a v m) = true := by
  induction m with
  | nil => rfl
  | cons c rest ih =>
    obtain ⟨k, u⟩ := c
    obtain ⟨h1, h2⟩ := (Memory.rising_cons _ rest).mp h
    have hk : k ≠ a := hno (k, u) List.mem_cons_self
    unfold Memory.insertCell
    split
    next hlt =>
      rw [Memory.rising_cons]
      refine ⟨fun d hd => ?_, h⟩
      rcases List.mem_cons.mp hd with rfl | hd'
      · exact hlt
      · exact Nat.lt_trans hlt (h1 d hd')
    next hlt =>
      rw [Memory.rising_cons]
      refine ⟨fun d hd => ?_, ih (fun c hc => hno c (List.mem_cons_of_mem _ hc)) h2⟩
      rcases (Memory.mem_insertCell rest a v d).mp hd with rfl | hd'
      · show k < a; omega
      · exact h1 d hd'

/-- A write inside memory keeps the canonical form. -/
theorem Memory.wf_put (m : Memory) (a : Nat) (v : Byte) (ha : a < Config.memSize) (h : m.wf = true) :
    (m.put a v).wf = true := by
  simp only [Memory.wf, Bool.and_eq_true, List.all_eq_true] at h ⊢
  obtain ⟨h1, h2⟩ := h
  have hf := Memory.rising_filter m (fun c => c.1 != a) h1
  have hno : ∀ c ∈ m.filter (fun c => c.1 != a), c.1 ≠ a := fun c hc => by simpa using (List.mem_filter.mp hc).2
  unfold Memory.put
  by_cases hv : v = Memory.blank a
  · simp only [if_pos hv]
    exact ⟨hf, fun c hc => h2 c (List.mem_filter.mp hc).1⟩
  · simp only [if_neg hv]
    refine ⟨Memory.rising_insertCell _ a v hno hf, fun c hc => ?_⟩
    rcases (Memory.mem_insertCell _ a v c).mp hc with rfl | hc'
    · simp [Memory.cellOk, ha, hv]
    · exact h2 c (List.mem_filter.mp hc').1

/-- A store whose range lies in memory keeps the canonical form. -/
theorem Memory.wf_putBytes (bs : List Byte) : ∀ (m : Memory) (a : Nat), a + bs.length ≤ Config.memSize →
    m.wf = true → (m.putBytes a bs).wf = true := by
  induction bs with
  | nil => intro m a _ h; exact h
  | cons v rest ih =>
    intro m a ha h
    simp only [List.length_cons] at ha
    exact ih (m.put a v) (a + 1) (by omega) (Memory.wf_put m a v (by omega) h)

theorem Memory.wf_nil : Memory.wf [] = true := rfl

/-- The bytes a transfer reads, by position. -/
theorem State.length_bytesAt (s : State) (n : Nat) : ∀ a, (s.bytesAt a n).length = n := by
  induction n with
  | zero => intro a; rfl
  | succ n ih => intro a; simp [State.bytesAt, ih]

theorem State.getElem_bytesAt (s : State) (n : Nat) : ∀ (a j : Nat) (h : j < (s.bytesAt a n).length),
    (s.bytesAt a n)[j] = s.byte (a + j) := by
  induction n with
  | zero => intro a j h; simp [State.bytesAt] at h
  | succ n ih =>
    intro a j h
    cases j with
    | zero => rfl
    | succ j =>
      simp only [State.bytesAt, List.getElem_cons_succ, ih]
      congr 1; omega

/-- The range check of R51 as arithmetic. -/
theorem inMemory_iff (a n : Nat) : inMemory a n = true ↔ n = 0 ∨ a + n ≤ 4096 := by
  rw [inMemory, Bool.or_eq_true, beq_iff_eq, decide_eq_true_iff]
  rfl

end Sys2Proof.Machine
end

