-- ==== Sys2Proof/Laws/State.lean ====
section
/-! SUPPORT. For each shared operation on the state, the fields it leaves alone and those it writes, one simp lemma each. -/

namespace Sys2Proof.Machine

/-! ### `setReg` -/

@[simp] theorem State.setReg_I (s : State) (x : Reg) (v : Byte) : (s.setReg x v).I = s.I := rfl
@[simp] theorem State.setReg_pc (s : State) (x : Reg) (v : Byte) : (s.setReg x v).pc = s.pc := rfl
@[simp] theorem State.setReg_SP (s : State) (x : Reg) (v : Byte) : (s.setReg x v).SP = s.SP := rfl
@[simp] theorem State.setReg_stack (s : State) (x : Reg) (v : Byte) : (s.setReg x v).stack = s.stack := rfl
@[simp] theorem State.setReg_DT (s : State) (x : Reg) (v : Byte) : (s.setReg x v).DT = s.DT := rfl
@[simp] theorem State.setReg_ST (s : State) (x : Reg) (v : Byte) : (s.setReg x v).ST = s.ST := rfl
@[simp] theorem State.setReg_pix (s : State) (x : Reg) (v : Byte) : (s.setReg x v).pix = s.pix := rfl
@[simp] theorem State.setReg_key (s : State) (x : Reg) (v : Byte) : (s.setReg x v).key = s.key := rfl
@[simp] theorem State.setReg_mem (s : State) (x : Reg) (v : Byte) : (s.setReg x v).mem = s.mem := rfl
@[simp] theorem State.setReg_status (s : State) (x : Reg) (v : Byte) : (s.setReg x v).status = s.status := rfl
@[simp] theorem State.setReg_faultCode (s : State) (x : Reg) (v : Byte) : (s.setReg x v).faultCode = s.faultCode := rfl
@[simp] theorem State.setReg_faultPc (s : State) (x : Reg) (v : Byte) : (s.setReg x v).faultPc = s.faultPc := rfl
@[simp] theorem State.setReg_font (s : State) (x : Reg) (v : Byte) : (s.setReg x v).font = s.font := rfl
@[simp] theorem State.setReg_loadOpen (s : State) (x : Reg) (v : Byte) : (s.setReg x v).loadOpen = s.loadOpen := rfl
@[simp] theorem State.setReg_events (s : State) (x : Reg) (v : Byte) : (s.setReg x v).events = s.events := rfl
@[simp] theorem State.setReg_draws (s : State) (x : Reg) (v : Byte) : (s.setReg x v).draws = s.draws := rfl
@[simp] theorem State.setReg_diags (s : State) (x : Reg) (v : Byte) : (s.setReg x v).diags = s.diags := rfl

/-! ### `setFlagThenReg` -/

@[simp] theorem State.setFlagThenReg_I (s : State) (x : Reg) (f v : Byte) : (s.setFlagThenReg x f v).I = s.I := rfl
@[simp] theorem State.setFlagThenReg_pc (s : State) (x : Reg) (f v : Byte) : (s.setFlagThenReg x f v).pc = s.pc := rfl
@[simp] theorem State.setFlagThenReg_SP (s : State) (x : Reg) (f v : Byte) : (s.setFlagThenReg x f v).SP = s.SP := rfl
@[simp] theorem State.setFlagThenReg_stack (s : State) (x : Reg) (f v : Byte) : (s.setFlagThenReg x f v).stack = s.stack := rfl
@[simp] theorem State.setFlagThenReg_DT (s : State) (x : Reg) (f v : Byte) : (s.setFlagThenReg x f v).DT = s.DT := rfl
@[simp] theorem State.setFlagThenReg_ST (s : State) (x : Reg) (f v : Byte) : (s.setFlagThenReg x f v).ST = s.ST := rfl
@[simp] theorem State.setFlagThenReg_pix (s : State) (x : Reg) (f v : Byte) : (s.setFlagThenReg x f v).pix = s.pix := rfl
@[simp] theorem State.setFlagThenReg_key (s : State) (x : Reg) (f v : Byte) : (s.setFlagThenReg x f v).key = s.key := rfl
@[simp] theorem State.setFlagThenReg_mem (s : State) (x : Reg) (f v : Byte) : (s.setFlagThenReg x f v).mem = s.mem := rfl
@[simp] theorem State.setFlagThenReg_status (s : State) (x : Reg) (f v : Byte) : (s.setFlagThenReg x f v).status = s.status := rfl
@[simp] theorem State.setFlagThenReg_faultCode (s : State) (x : Reg) (f v : Byte) : (s.setFlagThenReg x f v).faultCode = s.faultCode := rfl
@[simp] theorem State.setFlagThenReg_faultPc (s : State) (x : Reg) (f v : Byte) : (s.setFlagThenReg x f v).faultPc = s.faultPc := rfl
@[simp] theorem State.setFlagThenReg_font (s : State) (x : Reg) (f v : Byte) : (s.setFlagThenReg x f v).font = s.font := rfl
@[simp] theorem State.setFlagThenReg_loadOpen (s : State) (x : Reg) (f v : Byte) : (s.setFlagThenReg x f v).loadOpen = s.loadOpen := rfl
@[simp] theorem State.setFlagThenReg_events (s : State) (x : Reg) (f v : Byte) : (s.setFlagThenReg x f v).events = s.events := rfl
@[simp] theorem State.setFlagThenReg_draws (s : State) (x : Reg) (f v : Byte) : (s.setFlagThenReg x f v).draws = s.draws := rfl
@[simp] theorem State.setFlagThenReg_diags (s : State) (x : Reg) (f v : Byte) : (s.setFlagThenReg x f v).diags = s.diags := rfl

/-! ### `storeBytes` -/

@[simp] theorem State.storeBytes_V (s : State) (a : Nat) (bs : List Byte) : (s.storeBytes a bs).V = s.V := rfl
@[simp] theorem State.storeBytes_I (s : State) (a : Nat) (bs : List Byte) : (s.storeBytes a bs).I = s.I := rfl
@[simp] theorem State.storeBytes_pc (s : State) (a : Nat) (bs : List Byte) : (s.storeBytes a bs).pc = s.pc := rfl
@[simp] theorem State.storeBytes_SP (s : State) (a : Nat) (bs : List Byte) : (s.storeBytes a bs).SP = s.SP := rfl
@[simp] theorem State.storeBytes_stack (s : State) (a : Nat) (bs : List Byte) : (s.storeBytes a bs).stack = s.stack := rfl
@[simp] theorem State.storeBytes_DT (s : State) (a : Nat) (bs : List Byte) : (s.storeBytes a bs).DT = s.DT := rfl
@[simp] theorem State.storeBytes_ST (s : State) (a : Nat) (bs : List Byte) : (s.storeBytes a bs).ST = s.ST := rfl
@[simp] theorem State.storeBytes_pix (s : State) (a : Nat) (bs : List Byte) : (s.storeBytes a bs).pix = s.pix := rfl
@[simp] theorem State.storeBytes_key (s : State) (a : Nat) (bs : List Byte) : (s.storeBytes a bs).key = s.key := rfl
@[simp] theorem State.storeBytes_mem (s : State) (a : Nat) (bs : List Byte) : (s.storeBytes a bs).mem = s.mem.putBytes a bs := rfl
@[simp] theorem State.storeBytes_status (s : State) (a : Nat) (bs : List Byte) : (s.storeBytes a bs).status = s.status := rfl
@[simp] theorem State.storeBytes_faultCode (s : State) (a : Nat) (bs : List Byte) : (s.storeBytes a bs).faultCode = s.faultCode := rfl
@[simp] theorem State.storeBytes_faultPc (s : State) (a : Nat) (bs : List Byte) : (s.storeBytes a bs).faultPc = s.faultPc := rfl
@[simp] theorem State.storeBytes_font (s : State) (a : Nat) (bs : List Byte) : (s.storeBytes a bs).font = s.font := rfl
@[simp] theorem State.storeBytes_loadOpen (s : State) (a : Nat) (bs : List Byte) : (s.storeBytes a bs).loadOpen = s.loadOpen := rfl
@[simp] theorem State.storeBytes_events (s : State) (a : Nat) (bs : List Byte) : (s.storeBytes a bs).events = s.events := rfl
@[simp] theorem State.storeBytes_draws (s : State) (a : Nat) (bs : List Byte) : (s.storeBytes a bs).draws = s.draws := rfl
@[simp] theorem State.storeBytes_diags (s : State) (a : Nat) (bs : List Byte) : (s.storeBytes a bs).diags = s.diags := rfl

/-! ### `advance` -/

@[simp] theorem State.advance_V (s : State) : (s.advance).V = s.V := rfl
@[simp] theorem State.advance_I (s : State) : (s.advance).I = s.I := rfl
@[simp] theorem State.advance_pc (s : State) : (s.advance).pc = s.pc + 2 := rfl
@[simp] theorem State.advance_SP (s : State) : (s.advance).SP = s.SP := rfl
@[simp] theorem State.advance_stack (s : State) : (s.advance).stack = s.stack := rfl
@[simp] theorem State.advance_DT (s : State) : (s.advance).DT = s.DT := rfl
@[simp] theorem State.advance_ST (s : State) : (s.advance).ST = s.ST := rfl
@[simp] theorem State.advance_pix (s : State) : (s.advance).pix = s.pix := rfl
@[simp] theorem State.advance_key (s : State) : (s.advance).key = s.key := rfl
@[simp] theorem State.advance_mem (s : State) : (s.advance).mem = s.mem := rfl
@[simp] theorem State.advance_status (s : State) : (s.advance).status = s.status := rfl
@[simp] theorem State.advance_faultCode (s : State) : (s.advance).faultCode = s.faultCode := rfl
@[simp] theorem State.advance_faultPc (s : State) : (s.advance).faultPc = s.faultPc := rfl
@[simp] theorem State.advance_font (s : State) : (s.advance).font = s.font := rfl
@[simp] theorem State.advance_loadOpen (s : State) : (s.advance).loadOpen = s.loadOpen := rfl
@[simp] theorem State.advance_events (s : State) : (s.advance).events = s.events := rfl
@[simp] theorem State.advance_draws (s : State) : (s.advance).draws = s.draws := rfl
@[simp] theorem State.advance_diags (s : State) : (s.advance).diags = s.diags := rfl

/-! ### `closeLoad` -/

@[simp] theorem State.closeLoad_V (s : State) : (s.closeLoad).V = s.V := rfl
@[simp] theorem State.closeLoad_I (s : State) : (s.closeLoad).I = s.I := rfl
@[simp] theorem State.closeLoad_pc (s : State) : (s.closeLoad).pc = s.pc := rfl
@[simp] theorem State.closeLoad_SP (s : State) : (s.closeLoad).SP = s.SP := rfl
@[simp] theorem State.closeLoad_stack (s : State) : (s.closeLoad).stack = s.stack := rfl
@[simp] theorem State.closeLoad_DT (s : State) : (s.closeLoad).DT = s.DT := rfl
@[simp] theorem State.closeLoad_ST (s : State) : (s.closeLoad).ST = s.ST := rfl
@[simp] theorem State.closeLoad_pix (s : State) : (s.closeLoad).pix = s.pix := rfl
@[simp] theorem State.closeLoad_key (s : State) : (s.closeLoad).key = s.key := rfl
@[simp] theorem State.closeLoad_mem (s : State) : (s.closeLoad).mem = s.mem := rfl
@[simp] theorem State.closeLoad_status (s : State) : (s.closeLoad).status = s.status := rfl
@[simp] theorem State.closeLoad_faultCode (s : State) : (s.closeLoad).faultCode = s.faultCode := rfl
@[simp] theorem State.closeLoad_faultPc (s : State) : (s.closeLoad).faultPc = s.faultPc := rfl
@[simp] theorem State.closeLoad_font (s : State) : (s.closeLoad).font = s.font := rfl
@[simp] theorem State.closeLoad_loadOpen (s : State) : (s.closeLoad).loadOpen = false := rfl
@[simp] theorem State.closeLoad_events (s : State) : (s.closeLoad).events = s.events := rfl
@[simp] theorem State.closeLoad_draws (s : State) : (s.closeLoad).draws = s.draws := rfl
@[simp] theorem State.closeLoad_diags (s : State) : (s.closeLoad).diags = s.diags := rfl

/-! ### `withEvents` -/

@[simp] theorem State.withEvents_V (s : State) (es : List Event) : (s.withEvents es).V = s.V := rfl
@[simp] theorem State.withEvents_I (s : State) (es : List Event) : (s.withEvents es).I = s.I := rfl
@[simp] theorem State.withEvents_pc (s : State) (es : List Event) : (s.withEvents es).pc = s.pc := rfl
@[simp] theorem State.withEvents_SP (s : State) (es : List Event) : (s.withEvents es).SP = s.SP := rfl
@[simp] theorem State.withEvents_stack (s : State) (es : List Event) : (s.withEvents es).stack = s.stack := rfl
@[simp] theorem State.withEvents_DT (s : State) (es : List Event) : (s.withEvents es).DT = s.DT := rfl
@[simp] theorem State.withEvents_ST (s : State) (es : List Event) : (s.withEvents es).ST = s.ST := rfl
@[simp] theorem State.withEvents_pix (s : State) (es : List Event) : (s.withEvents es).pix = s.pix := rfl
@[simp] theorem State.withEvents_key (s : State) (es : List Event) : (s.withEvents es).key = s.key := rfl
@[simp] theorem State.withEvents_mem (s : State) (es : List Event) : (s.withEvents es).mem = s.mem := rfl
@[simp] theorem State.withEvents_status (s : State) (es : List Event) : (s.withEvents es).status = s.status := rfl
@[simp] theorem State.withEvents_faultCode (s : State) (es : List Event) : (s.withEvents es).faultCode = s.faultCode := rfl
@[simp] theorem State.withEvents_faultPc (s : State) (es : List Event) : (s.withEvents es).faultPc = s.faultPc := rfl
@[simp] theorem State.withEvents_font (s : State) (es : List Event) : (s.withEvents es).font = s.font := rfl
@[simp] theorem State.withEvents_loadOpen (s : State) (es : List Event) : (s.withEvents es).loadOpen = s.loadOpen := rfl
@[simp] theorem State.withEvents_events (s : State) (es : List Event) : (s.withEvents es).events = es := rfl
@[simp] theorem State.withEvents_draws (s : State) (es : List Event) : (s.withEvents es).draws = s.draws := rfl
@[simp] theorem State.withEvents_diags (s : State) (es : List Event) : (s.withEvents es).diags = s.diags := rfl

/-! ### `raiseAt` -/

@[simp] theorem State.raiseAt_V (s : State) (p : Word) (c : FaultCode) : (s.raiseAt p c).V = s.V := rfl
@[simp] theorem State.raiseAt_I (s : State) (p : Word) (c : FaultCode) : (s.raiseAt p c).I = s.I := rfl
@[simp] theorem State.raiseAt_pc (s : State) (p : Word) (c : FaultCode) : (s.raiseAt p c).pc = s.pc := rfl
@[simp] theorem State.raiseAt_SP (s : State) (p : Word) (c : FaultCode) : (s.raiseAt p c).SP = s.SP := rfl
@[simp] theorem State.raiseAt_stack (s : State) (p : Word) (c : FaultCode) : (s.raiseAt p c).stack = s.stack := rfl
@[simp] theorem State.raiseAt_DT (s : State) (p : Word) (c : FaultCode) : (s.raiseAt p c).DT = s.DT := rfl
@[simp] theorem State.raiseAt_ST (s : State) (p : Word) (c : FaultCode) : (s.raiseAt p c).ST = s.ST := rfl
@[simp] theorem State.raiseAt_pix (s : State) (p : Word) (c : FaultCode) : (s.raiseAt p c).pix = s.pix := rfl
@[simp] theorem State.raiseAt_key (s : State) (p : Word) (c : FaultCode) : (s.raiseAt p c).key = s.key := rfl
@[simp] theorem State.raiseAt_mem (s : State) (p : Word) (c : FaultCode) : (s.raiseAt p c).mem = s.mem := rfl
@[simp] theorem State.raiseAt_status (s : State) (p : Word) (c : FaultCode) : (s.raiseAt p c).status = .halted := rfl
@[simp] theorem State.raiseAt_faultCode (s : State) (p : Word) (c : FaultCode) : (s.raiseAt p c).faultCode = c := rfl
@[simp] theorem State.raiseAt_faultPc (s : State) (p : Word) (c : FaultCode) : (s.raiseAt p c).faultPc = p := rfl
@[simp] theorem State.raiseAt_font (s : State) (p : Word) (c : FaultCode) : (s.raiseAt p c).font = s.font := rfl
@[simp] theorem State.raiseAt_loadOpen (s : State) (p : Word) (c : FaultCode) : (s.raiseAt p c).loadOpen = s.loadOpen := rfl
@[simp] theorem State.raiseAt_events (s : State) (p : Word) (c : FaultCode) : (s.raiseAt p c).events = s.events := rfl
@[simp] theorem State.raiseAt_draws (s : State) (p : Word) (c : FaultCode) : (s.raiseAt p c).draws = s.draws := rfl
@[simp] theorem State.raiseAt_diags (s : State) (p : Word) (c : FaultCode) : (s.raiseAt p c).diags = s.diags := rfl

/-! ### `skipIf` -/

@[simp] theorem State.skipIf_pc (s : State) (c : Bool) : (s.skipIf c).pc = if c then s.pc + 2 else s.pc := by
  cases c <;> rfl
@[simp] theorem State.skipIf_V (s : State) (c : Bool) : (s.skipIf c).V = s.V := by cases c <;> rfl
@[simp] theorem State.skipIf_I (s : State) (c : Bool) : (s.skipIf c).I = s.I := by cases c <;> rfl
@[simp] theorem State.skipIf_SP (s : State) (c : Bool) : (s.skipIf c).SP = s.SP := by cases c <;> rfl
@[simp] theorem State.skipIf_stack (s : State) (c : Bool) : (s.skipIf c).stack = s.stack := by cases c <;> rfl
@[simp] theorem State.skipIf_DT (s : State) (c : Bool) : (s.skipIf c).DT = s.DT := by cases c <;> rfl
@[simp] theorem State.skipIf_ST (s : State) (c : Bool) : (s.skipIf c).ST = s.ST := by cases c <;> rfl
@[simp] theorem State.skipIf_pix (s : State) (c : Bool) : (s.skipIf c).pix = s.pix := by cases c <;> rfl
@[simp] theorem State.skipIf_key (s : State) (c : Bool) : (s.skipIf c).key = s.key := by cases c <;> rfl
@[simp] theorem State.skipIf_mem (s : State) (c : Bool) : (s.skipIf c).mem = s.mem := by cases c <;> rfl
@[simp] theorem State.skipIf_status (s : State) (c : Bool) : (s.skipIf c).status = s.status := by cases c <;> rfl
@[simp] theorem State.skipIf_faultCode (s : State) (c : Bool) : (s.skipIf c).faultCode = s.faultCode := by cases c <;> rfl
@[simp] theorem State.skipIf_faultPc (s : State) (c : Bool) : (s.skipIf c).faultPc = s.faultPc := by cases c <;> rfl
@[simp] theorem State.skipIf_font (s : State) (c : Bool) : (s.skipIf c).font = s.font := by cases c <;> rfl
@[simp] theorem State.skipIf_loadOpen (s : State) (c : Bool) : (s.skipIf c).loadOpen = s.loadOpen := by cases c <;> rfl
@[simp] theorem State.skipIf_events (s : State) (c : Bool) : (s.skipIf c).events = s.events := by cases c <;> rfl
@[simp] theorem State.skipIf_draws (s : State) (c : Bool) : (s.skipIf c).draws = s.draws := by cases c <;> rfl
@[simp] theorem State.skipIf_diags (s : State) (c : Bool) : (s.skipIf c).diags = s.diags := by cases c <;> rfl

/-! ### `loadRegs` -/

/-- `loadRegs` writes V only. -/
theorem State.loadRegs_eq (s : State) (a n : Nat) : s.loadRegs a n = { s with V := (s.loadRegs a n).V } := by
  induction n with
  | zero => rfl
  | succ n ih => rw [State.loadRegs, ih]; rfl

@[simp] theorem State.loadRegs_I (s : State) (a n : Nat) : (s.loadRegs a n).I = s.I := by rw [State.loadRegs_eq]
@[simp] theorem State.loadRegs_pc (s : State) (a n : Nat) : (s.loadRegs a n).pc = s.pc := by rw [State.loadRegs_eq]
@[simp] theorem State.loadRegs_SP (s : State) (a n : Nat) : (s.loadRegs a n).SP = s.SP := by rw [State.loadRegs_eq]
@[simp] theorem State.loadRegs_stack (s : State) (a n : Nat) : (s.loadRegs a n).stack = s.stack := by rw [State.loadRegs_eq]
@[simp] theorem State.loadRegs_DT (s : State) (a n : Nat) : (s.loadRegs a n).DT = s.DT := by rw [State.loadRegs_eq]
@[simp] theorem State.loadRegs_ST (s : State) (a n : Nat) : (s.loadRegs a n).ST = s.ST := by rw [State.loadRegs_eq]
@[simp] theorem State.loadRegs_pix (s : State) (a n : Nat) : (s.loadRegs a n).pix = s.pix := by rw [State.loadRegs_eq]
@[simp] theorem State.loadRegs_key (s : State) (a n : Nat) : (s.loadRegs a n).key = s.key := by rw [State.loadRegs_eq]
@[simp] theorem State.loadRegs_mem (s : State) (a n : Nat) : (s.loadRegs a n).mem = s.mem := by rw [State.loadRegs_eq]
@[simp] theorem State.loadRegs_status (s : State) (a n : Nat) : (s.loadRegs a n).status = s.status := by rw [State.loadRegs_eq]
@[simp] theorem State.loadRegs_faultCode (s : State) (a n : Nat) : (s.loadRegs a n).faultCode = s.faultCode := by rw [State.loadRegs_eq]
@[simp] theorem State.loadRegs_faultPc (s : State) (a n : Nat) : (s.loadRegs a n).faultPc = s.faultPc := by rw [State.loadRegs_eq]
@[simp] theorem State.loadRegs_font (s : State) (a n : Nat) : (s.loadRegs a n).font = s.font := by rw [State.loadRegs_eq]
@[simp] theorem State.loadRegs_loadOpen (s : State) (a n : Nat) : (s.loadRegs a n).loadOpen = s.loadOpen := by rw [State.loadRegs_eq]
@[simp] theorem State.loadRegs_events (s : State) (a n : Nat) : (s.loadRegs a n).events = s.events := by rw [State.loadRegs_eq]
@[simp] theorem State.loadRegs_draws (s : State) (a n : Nat) : (s.loadRegs a n).draws = s.draws := by rw [State.loadRegs_eq]
@[simp] theorem State.loadRegs_diags (s : State) (a n : Nat) : (s.loadRegs a n).diags = s.diags := by rw [State.loadRegs_eq]

end Sys2Proof.Machine
end

