-- ==== Sys2Proof/Laws/Registers.lean ====
section
/-! SUPPORT. The laws of the general registers and of the two shared outcomes: a checked transfer and a fatal fault. -/

namespace Sys2Proof.Machine

/-- A write changes V[x] and no other register. -/
theorem State.reg_setReg (s : State) (x y : Reg) (v : Byte) : (s.setReg x v).reg y = if x = y then v else s.reg y := by
  simp [State.reg, State.setReg, Vector.getElem_set, Fin.ext_iff]

@[simp] theorem State.reg_setReg_self (s : State) (x : Reg) (v : Byte) : (s.setReg x v).reg x = v := by
  simp [State.reg_setReg]

theorem State.reg_setReg_of_ne (s : State) (x y : Reg) (v : Byte) (h : x ≠ y) : (s.setReg x v).reg y = s.reg y := by
  simp [State.reg_setReg, h]

/-- The result is written after the flag, so with x = F it stays. -/
theorem State.reg_setFlagThenReg (s : State) (x y : Reg) (f v : Byte) :
    (s.setFlagThenReg x f v).reg y = if x = y then v else if vF = y then f else s.reg y := by
  simp only [State.setFlagThenReg, State.reg_setReg]

/-- Two states with the same registers read the same. -/
theorem State.reg_congr {s t : State} (h : t.V = s.V) (x : Reg) : t.reg x = s.reg x := by simp [State.reg, h]

theorem State.byte_congr {s t : State} (h : t.mem = s.mem) (a : Nat) : t.byte a = s.byte a := by simp [State.byte, h]

@[simp] theorem State.byte_setReg (s : State) (x : Reg) (v : Byte) (a : Nat) : (s.setReg x v).byte a = s.byte a := rfl

@[simp] theorem State.byte_loadRegs (s : State) (b n a : Nat) : (s.loadRegs b n).byte a = s.byte a :=
  State.byte_congr (State.loadRegs_mem s b n) a

/-- After loading n registers, register i < n holds the byte at base + i and the others are unchanged. -/
theorem State.reg_loadRegs (s : State) (base n : Nat) (hn : n ≤ 16) (y : Reg) :
    (s.loadRegs base n).reg y = if y.val < n then s.byte (base + y.val) else s.reg y := by
  induction n with
  | zero => simp [State.loadRegs]
  | succ n ih =>
    have hv : (regIx n).val = n := Nat.mod_eq_of_lt (by omega)
    rw [State.loadRegs, State.reg_setReg, ih (by omega)]
    by_cases h : regIx n = y
    · have hy : y.val = n := by rw [← h]; exact hv
      rw [if_pos h, if_pos (by omega), hy]
    · have hy : y.val ≠ n := fun e => h (Fin.ext (hv.trans e.symm))
      rw [if_neg h]
      by_cases hlt : y.val < n
      · rw [if_pos hlt, if_pos (by omega)]
      · rw [if_neg hlt, if_neg (by omega)]

theorem State.length_regsUpTo (s : State) (x : Reg) : (s.regsUpTo x).length = x.val + 1 := by
  simp [State.regsUpTo]

theorem State.getElem_regsUpTo (s : State) (x : Reg) (j : Nat) (h : j < (s.regsUpTo x).length) :
    (s.regsUpTo x)[j] = s.reg ⟨j, by rw [State.length_regsUpTo] at h; omega⟩ := by
  simp [State.regsUpTo, State.reg]

/-- All a checked transfer can do: its effect where the range is in memory, else the MemRange fault. -/
theorem State.checked_cases {s d t : State} {a n : Nat} (h : s.checked a n d = .next t) :
    (inMemory a n = true ∧ t = d) ∨ (inMemory a n = false ∧ t = s.raiseAt s.pcI .memRange) := by
  unfold State.checked State.raise at h
  cases hm : inMemory a n <;> simp_all

/-- A checked transfer always answers a next state. -/
theorem State.checked_completes (s d : State) (a n : Nat) : ∃ t, s.checked a n d = .next t := by
  unfold State.checked State.raise
  split <;> exact ⟨_, rfl⟩

end Sys2Proof.Machine
end

