-- ==== Sys2Proof/Laws/Frames.lean ====
section
/-! SUPPORT. The laws of frames, what the shared operations leave unchanged in the terms of the claims, and the reset content
of memory. -/

namespace Sys2Proof.Machine

/-! ### The reset content of memory -/

/-- An unlisted address below 80 reads as its font byte (R55, R65). -/
theorem Memory.blank_of_lt (a : Nat) (h : a < 80) : Memory.blank a = Config.fontVector[a] := by
  have hl : a < Config.font.length := h
  unfold Memory.blank
  rw [List.getD_eq_getElem _ _ hl]
  rfl

/-- An unlisted address from 80 on reads as 0 (R55). -/
theorem Memory.blank_of_le (a : Nat) (h : 80 ≤ a) : Memory.blank a = 0 := by
  unfold Memory.blank
  exact List.getD_eq_default _ _ h

/-- What construction changes of the reset state: memory and the parameter (R240). -/
theorem State.constructed_eq (font : Vector Byte 80) (image : List Byte) :
    State.constructed font image = { State.reset with mem := (State.constructed font image).mem, font := font } := rfl

/-- The reset state is that of construction with the default FONT and an empty image (R240). -/
theorem State.constructed_default : State.constructed Config.fontVector [] = State.reset := by
  have h : (State.constructed Config.fontVector []).mem = [] := by decide
  rw [State.constructed_eq, h]
  rfl

/-! ### Frames -/

theorem StatePart.same_refl (p : StatePart) (s : State) : p.same s s := by
  cases p <;> simp [StatePart.same]

theorem StatePart.same_trans (p : StatePart) {s t u : State} (h : p.same s t) (h' : p.same t u) : p.same s u := by
  cases p <;> simp_all [StatePart.same]

/-- Nothing changes in a state left as it was. -/
theorem Frame.refl (changed : List StatePart) (s : State) : Frame changed s s := fun p _ => p.same_refl s

/-- Two changes together stay in the parts of both. -/
theorem Frame.trans {a : List StatePart} {s t u : State} (h : Frame a s t) (h' : Frame a t u) : Frame a s u :=
  fun p hp => p.same_trans (h p hp) (h' p hp)

/-- A frame holds for more parts as well. -/
theorem Frame.mono {a b : List StatePart} {s t : State} (h : Frame a s t) (hab : ∀ p ∈ a, p ∈ b) : Frame b s t :=
  fun p hp => h p (fun e => hp (hab p e))

/-- A register write changes the registers only. -/
theorem State.frame_setReg (s : State) (x : Reg) (v : Byte) : Frame [.V] s (s.setReg x v) := by
  intro p hp; cases p <;> simp_all [StatePart.same, State.pixel]

/-- A flag and a result change the registers only. -/
theorem State.frame_setFlagThenReg (s : State) (x : Reg) (f v : Byte) : Frame [.V] s (s.setFlagThenReg x f v) :=
  (s.frame_setReg vF f).trans ((s.setReg vF f).frame_setReg x v)

/-- Loaded registers change the registers only. -/
theorem State.frame_loadRegs (s : State) (a n : Nat) : Frame [.V] s (s.loadRegs a n) := by
  intro p hp; cases p <;> simp_all [StatePart.same, State.pixel]

/-- A store changes memory only. -/
theorem State.frame_storeBytes (s : State) (a : Nat) (bs : List Byte) : Frame [.mem] s (s.storeBytes a bs) := by
  intro p hp; cases p <;> simp_all [StatePart.same, State.pixel, State.reg]

/-- A store changes no byte outside the stored ones. -/
theorem State.memFrame_storeBytes (s : State) (a : Nat) (bs : List Byte) : MemFrame a bs.length s (s.storeBytes a bs) :=
  fun b hb => s.byte_storeBytes_of_outside a bs b hb

/-- A skip changes pc only. -/
theorem State.frame_skipIf (s : State) (c : Bool) : Frame [.pc] s (s.skipIf c) := by
  intro p hp; cases p <;> simp_all [StatePart.same, State.pixel, State.reg, State.byte]

/-- A fatal fault changes the status and the fault record only (R212). -/
theorem State.frame_raiseAt (s : State) (p : Word) (c : FaultCode) :
    Frame [.status, .faultRecord] s (s.raiseAt p c) := by
  intro q hq; cases q <;> simp_all [StatePart.same, State.pixel, State.reg, State.byte]

/-- An instruction that raises takes the fault, at its own address (R212). -/
theorem takesFault_of_raise {i : Instr} {s : State} {c : FaultCode} (h : exec i s = s.raise c) : TakesFault i s c :=
  ⟨_, h, rfl, rfl, rfl, s.frame_raiseAt _ _⟩

end Sys2Proof.Machine
end

