-- ==== Sys2Proof/Laws/PerInstr.lean ====
section
/-! SUPPORT. One law per instruction: its word lies in its row of the opcode map (spec/30_encoding.md R74). -/

namespace Sys2Proof.Laws.OnRow

/-- The mask and match of an instruction's row of R74. -/
def row : Instr → Word × Word
  | .cls => (0xFFFF#16, 0x00E0#16)
  | .ret => (0xFFFF#16, 0x00EE#16)
  | .sys _ => (0xF000#16, 0x0000#16)
  | .jp _ => (0xF000#16, 0x1000#16)
  | .call _ => (0xF000#16, 0x2000#16)
  | .seImm _ _ => (0xF000#16, 0x3000#16)
  | .sneImm _ _ => (0xF000#16, 0x4000#16)
  | .seReg _ _ => (0xF00F#16, 0x5000#16)
  | .ldImm _ _ => (0xF000#16, 0x6000#16)
  | .addImm _ _ => (0xF000#16, 0x7000#16)
  | .ldReg _ _ => (0xF00F#16, 0x8000#16)
  | .or _ _ => (0xF00F#16, 0x8001#16)
  | .and _ _ => (0xF00F#16, 0x8002#16)
  | .xor _ _ => (0xF00F#16, 0x8003#16)
  | .addReg _ _ => (0xF00F#16, 0x8004#16)
  | .sub _ _ => (0xF00F#16, 0x8005#16)
  | .shr _ _ => (0xF00F#16, 0x8006#16)
  | .subn _ _ => (0xF00F#16, 0x8007#16)
  | .shl _ _ => (0xF00F#16, 0x800E#16)
  | .sneReg _ _ => (0xF00F#16, 0x9000#16)
  | .ldI _ => (0xF000#16, 0xA000#16)
  | .jpV0 _ => (0xF000#16, 0xB000#16)
  | .rnd _ _ => (0xF000#16, 0xC000#16)
  | .drw _ _ _ => (0xF000#16, 0xD000#16)
  | .skp _ => (0xF0FF#16, 0xE09E#16)
  | .sknp _ => (0xF0FF#16, 0xE0A1#16)
  | .ldVxDt _ => (0xF0FF#16, 0xF007#16)
  | .ldVxK _ => (0xF0FF#16, 0xF00A#16)
  | .ldDt _ => (0xF0FF#16, 0xF015#16)
  | .ldSt _ => (0xF0FF#16, 0xF018#16)
  | .addI _ => (0xF0FF#16, 0xF01E#16)
  | .ldF _ => (0xF0FF#16, 0xF029#16)
  | .ldB _ => (0xF0FF#16, 0xF033#16)
  | .ldStore _ => (0xF0FF#16, 0xF055#16)
  | .ldLoad _ => (0xF0FF#16, 0xF065#16)
  | .unmatched _ => (0x0000#16, 0x0000#16)

/-- The instruction's word lies in its row. -/
def Statement (i : Instr) : Prop := encode i &&& (row i).1 = (row i).2

theorem of_asmNNN (c : Nat) (nnn : Addr) (m : Word) (hc : c < 16) (hm : m.toNat = c * 4096) :
    asmNNN c nnn &&& 0xF000#16 = m := by
  have h := and_F000_beq (asmNNN c nnn) m c hm
  rw [fieldC_asmNNN c nnn hc] at h
  simpa using h

theorem of_asmXNN (c : Nat) (x : Reg) (nn : Byte) (m : Word) (hc : c < 16) (hm : m.toNat = c * 4096) :
    asmXNN c x nn.toNat &&& 0xF000#16 = m := by
  have h := and_F000_beq (asmXNN c x nn.toNat) m c hm
  rw [fieldC_asmXNN c x nn.toNat hc nn.isLt] at h
  simpa using h

theorem of_asmXYN (c : Nat) (x y : Reg) (n : Nibble) (m : Word) (hc : c < 16) (hm : m.toNat = c * 4096) :
    asmXYN c x y n.toNat &&& 0xF000#16 = m := by
  have h := and_F000_beq (asmXYN c x y n.toNat) m c hm
  rw [fieldC_asmXYN c x y n.toNat hc n.isLt] at h
  simpa using h

theorem of_asmXYsub (c : Nat) (x y : Reg) (n : Nat) (m : Word) (hc : c < 16) (hn : n < 16) (hm : m.toNat = c * 4096 + n) :
    asmXYN c x y n &&& 0xF00F#16 = m := by
  have h := and_F00F_beq (asmXYN c x y n) m c n hm hn
  rw [fieldC_asmXYN c x y n hc hn, subN_asmXYN c x y n hc hn] at h
  simpa using h

theorem of_asmXsub (c : Nat) (x : Reg) (n : Nat) (m : Word) (hc : c < 16) (hn : n < 256) (hm : m.toNat = c * 4096 + n) :
    asmXNN c x n &&& 0xF0FF#16 = m := by
  have h := and_F0FF_beq (asmXNN c x n) m c n hm hn
  rw [fieldC_asmXNN c x n hc hn, subNN_asmXNN c x n hc hn] at h
  simpa using h

theorem cls : Statement .cls := and_mask_FFFF _
theorem ret : Statement .ret := and_mask_FFFF _
theorem sys (nnn : Addr) : Statement (.sys nnn) := of_asmNNN 0x0 nnn _ (by decide) rfl
theorem jp (nnn : Addr) : Statement (.jp nnn) := of_asmNNN 0x1 nnn _ (by decide) rfl
theorem call (nnn : Addr) : Statement (.call nnn) := of_asmNNN 0x2 nnn _ (by decide) rfl
theorem seImm (x : Reg) (nn : Byte) : Statement (.seImm x nn) := of_asmXNN 0x3 x nn _ (by decide) rfl
theorem sneImm (x : Reg) (nn : Byte) : Statement (.sneImm x nn) := of_asmXNN 0x4 x nn _ (by decide) rfl
theorem seReg (x y : Reg) : Statement (.seReg x y) := of_asmXYsub 0x5 x y 0x0 _ (by decide) (by decide) rfl
theorem ldImm (x : Reg) (nn : Byte) : Statement (.ldImm x nn) := of_asmXNN 0x6 x nn _ (by decide) rfl
theorem addImm (x : Reg) (nn : Byte) : Statement (.addImm x nn) := of_asmXNN 0x7 x nn _ (by decide) rfl
theorem ldReg (x y : Reg) : Statement (.ldReg x y) := of_asmXYsub 0x8 x y 0x0 _ (by decide) (by decide) rfl
theorem or (x y : Reg) : Statement (.or x y) := of_asmXYsub 0x8 x y 0x1 _ (by decide) (by decide) rfl
theorem and (x y : Reg) : Statement (.and x y) := of_asmXYsub 0x8 x y 0x2 _ (by decide) (by decide) rfl
theorem xor (x y : Reg) : Statement (.xor x y) := of_asmXYsub 0x8 x y 0x3 _ (by decide) (by decide) rfl
theorem addReg (x y : Reg) : Statement (.addReg x y) := of_asmXYsub 0x8 x y 0x4 _ (by decide) (by decide) rfl
theorem sub (x y : Reg) : Statement (.sub x y) := of_asmXYsub 0x8 x y 0x5 _ (by decide) (by decide) rfl
theorem shr (x y : Reg) : Statement (.shr x y) := of_asmXYsub 0x8 x y 0x6 _ (by decide) (by decide) rfl
theorem subn (x y : Reg) : Statement (.subn x y) := of_asmXYsub 0x8 x y 0x7 _ (by decide) (by decide) rfl
theorem shl (x y : Reg) : Statement (.shl x y) := of_asmXYsub 0x8 x y 0xE _ (by decide) (by decide) rfl
theorem sneReg (x y : Reg) : Statement (.sneReg x y) := of_asmXYsub 0x9 x y 0x0 _ (by decide) (by decide) rfl
theorem ldI (nnn : Addr) : Statement (.ldI nnn) := of_asmNNN 0xA nnn _ (by decide) rfl
theorem jpV0 (nnn : Addr) : Statement (.jpV0 nnn) := of_asmNNN 0xB nnn _ (by decide) rfl
theorem rnd (x : Reg) (nn : Byte) : Statement (.rnd x nn) := of_asmXNN 0xC x nn _ (by decide) rfl
theorem drw (x y : Reg) (n : Nibble) : Statement (.drw x y n) := of_asmXYN 0xD x y n _ (by decide) rfl
theorem skp (x : Reg) : Statement (.skp x) := of_asmXsub 0xE x 0x9E _ (by decide) (by decide) rfl
theorem sknp (x : Reg) : Statement (.sknp x) := of_asmXsub 0xE x 0xA1 _ (by decide) (by decide) rfl
theorem ldVxDt (x : Reg) : Statement (.ldVxDt x) := of_asmXsub 0xF x 0x07 _ (by decide) (by decide) rfl
theorem ldVxK (x : Reg) : Statement (.ldVxK x) := of_asmXsub 0xF x 0x0A _ (by decide) (by decide) rfl
theorem ldDt (x : Reg) : Statement (.ldDt x) := of_asmXsub 0xF x 0x15 _ (by decide) (by decide) rfl
theorem ldSt (x : Reg) : Statement (.ldSt x) := of_asmXsub 0xF x 0x18 _ (by decide) (by decide) rfl
theorem addI (x : Reg) : Statement (.addI x) := of_asmXsub 0xF x 0x1E _ (by decide) (by decide) rfl
theorem ldF (x : Reg) : Statement (.ldF x) := of_asmXsub 0xF x 0x29 _ (by decide) (by decide) rfl
theorem ldB (x : Reg) : Statement (.ldB x) := of_asmXsub 0xF x 0x33 _ (by decide) (by decide) rfl
theorem ldStore (x : Reg) : Statement (.ldStore x) := of_asmXsub 0xF x 0x55 _ (by decide) (by decide) rfl
theorem ldLoad (x : Reg) : Statement (.ldLoad x) := of_asmXsub 0xF x 0x65 _ (by decide) (by decide) rfl
theorem unmatched (w : Word) : Statement (.unmatched w) := BitVec.and_zero

end Sys2Proof.Laws.OnRow
end

