-- ==== Sys2Proof/Laws/Step.lean ====
section
/-! SUPPORT. What a fetch, a cycle and a step can do, said once. -/

namespace Sys2Proof.Machine

theorem State.memRead_eq_none_iff (s : State) (a : Nat) : s.memRead a = none ↔ 0xFFF < a := by
  have h := inMemory_iff a 1
  unfold State.memRead
  split <;> simp_all <;> omega

/-- A fetch fails exactly where the word would extend beyond 0xFFF (R91). -/
theorem State.fetch_eq_none_iff (s : State) : s.fetch = none ↔ 0xFFE < s.pc.toNat := by
  have h1 := s.memRead_eq_none_iff s.pc.toNat
  have h2 := s.memRead_eq_none_iff (s.pc.toNat + 1)
  rw [show (0xFFE < s.pc.toNat ↔ 0xFFF < s.pc.toNat ∨ 0xFFF < s.pc.toNat + 1) by omega, ← h1, ← h2]
  unfold State.fetch
  cases s.memRead s.pc.toNat <;> cases s.memRead (s.pc.toNat + 1) <;> simp

/-- A fetch reads the two bytes at pc, big-endian (R52). -/
theorem State.fetch_of_le (s : State) (h : s.pc.toNat ≤ 0xFFE) :
    s.fetch = some (wordOf (s.byte s.pc.toNat) (s.byte (s.pc.toNat + 1))) := by
  unfold State.fetch State.memRead
  rw [if_pos ((inMemory_iff _ _).mpr (by omega)), if_pos ((inMemory_iff _ _).mpr (by omega))]

/-- A Running core that can fetch runs the decoded instruction (R91). -/
theorem executeCycle_of_fetch {s : State} {w : Word} (hr : s.status = .running) (hf : s.fetch = some w) :
    executeCycle s = exec (decode w) s.closeLoad.advance := by
  simp only [executeCycle, hr, if_true, hf]

/-- A Running core that cannot fetch takes MemRange at pc (R91). -/
theorem executeCycle_of_no_fetch {s : State} (hr : s.status = .running) (hf : s.fetch = none) :
    executeCycle s = .next (s.closeLoad.raiseAt s.pc .memRange) := by
  simp only [executeCycle, hr, if_true, hf]

/-- A core that is not Running takes no step (R90). -/
theorem executeCycle_of_not_running {s : State} (hr : s.status ≠ .running) : executeCycle s = .next s := by
  simp only [executeCycle, if_neg hr]

/-- With no event listed the next event is a CPU step. -/
theorem step_of_no_events {s : State} (h : s.events = []) : step s = executeCycle s := by simp only [step, h]

/-- The oldest listed event happens, and leaves the list. -/
theorem step_of_event {s : State} {e : Event} {rest : List Event} (h : s.events = e :: rest) :
    step s = runEvent e (s.withEvents rest) := by simp only [step, h]

/-- Every step is one event, on the state without it. -/
theorem step_cases (s : State) :
    (s.events = [] ∧ step s = executeCycle s) ∨
      ∃ e rest, s.events = e :: rest ∧ step s = runEvent e (s.withEvents rest) := by
  cases h : s.events with
  | nil => exact .inl ⟨rfl, step_of_no_events h⟩
  | cons e rest => exact .inr ⟨e, rest, rfl, step_of_event h⟩

/-- All a cycle can do. -/
theorem executeCycle_cases (s : State) :
    (s.status ≠ .running ∧ executeCycle s = .next s) ∨
    (s.status = .running ∧ 0xFFE < s.pc.toNat ∧ executeCycle s = .next (s.closeLoad.raiseAt s.pc .memRange)) ∨
    (s.status = .running ∧ s.pc.toNat ≤ 0xFFE ∧ ∃ w, s.fetch = some w ∧
      executeCycle s = exec (decode w) s.closeLoad.advance) := by
  by_cases hr : s.status = .running
  · by_cases hp : s.pc.toNat ≤ 0xFFE
    · exact .inr (.inr ⟨hr, hp, _, s.fetch_of_le hp, executeCycle_of_fetch hr (s.fetch_of_le hp)⟩)
    · have hp' : 0xFFE < s.pc.toNat := by omega
      exact .inr (.inl ⟨hr, hp', executeCycle_of_no_fetch hr (s.fetch_eq_none_iff.mpr hp')⟩)
  · exact .inl ⟨hr, executeCycle_of_not_running hr⟩

/-- The first step of a run. -/
theorem core_run_of_next {s t : State} (n : Nat) (h : step s = .next t) : core.run (n + 1) s = core.run n t := by
  have hs : core.step s = .next t := h
  show Host.Core.run core (n + 1) s = _
  simp only [Host.Core.run, hs]

end Sys2Proof.Machine
end

