-- ==== Sys2Proof/Tests/Slice0.lean ====
section
/-! SUPPORT. Tests of one step each, with results from spec/95_test_vectors.md (their ids stand in the comments), the decoding of
words written out from R74, and the witnesses of the hypotheses of the statements. -/

namespace Sys2Proof.Tests

open Sys2Proof Sys2Proof.Machine

/-! ### WellFormed -/

theorem test_wf_refuses_sys_at_cls : (Instr.sys 0x0E0).wf = false := by decide
theorem test_wf_refuses_sys_at_ret : (Instr.sys 0x0EE).wf = false := by decide
theorem test_wf_refuses_unmatched_of_a_matched_word : (Instr.unmatched 0x8124).wf = false := by decide
theorem test_wf_accepts_neighbours :
    (Instr.sys 0x0E1).wf = true ∧ (Instr.unmatched 0x5121).wf = true ∧ (Instr.unmatched 0xE19F).wf = true := by decide

/-! ### Decoding: words from the patterns of R74, written out as class, x, y, n -/

theorem test_decode_class0 : decode 0b0000000011100000#16 = .cls ∧ decode 0b0000000011101110#16 = .ret ∧
    decode 0b0000000100100011#16 = .sys 0x123 := by decide
theorem test_decode_class1_to_4 : decode 0b0001001000110100#16 = .jp 0x234 ∧ decode 0b0010001000110100#16 = .call 0x234 ∧
    decode 0b0011000101000010#16 = .seImm 1 0x42 ∧ decode 0b0100000101000010#16 = .sneImm 1 0x42 := by decide
theorem test_decode_class5_to_7 : decode 0b0101000100100000#16 = .seReg 1 2 ∧
    decode 0b0110000000000101#16 = .ldImm 0 5 ∧ decode 0b0111001100000001#16 = .addImm 3 1 := by decide
theorem test_decode_class8_logic : decode 0b1000000100100000#16 = .ldReg 1 2 ∧ decode 0b1000000100100001#16 = .or 1 2 ∧
    decode 0b1000000100100010#16 = .and 1 2 ∧ decode 0b1000000100100011#16 = .xor 1 2 := by decide
theorem test_decode_class8_arith : decode 0b1000000100100100#16 = .addReg 1 2 ∧ decode 0b1000000100100101#16 = .sub 1 2 ∧
    decode 0b1000000100100110#16 = .shr 1 2 ∧ decode 0b1000000100100111#16 = .subn 1 2 ∧
    decode 0b1000000100101110#16 = .shl 1 2 := by decide
theorem test_decode_class9_to_D : decode 0b1001000100100000#16 = .sneReg 1 2 ∧ decode 0b1010000100100011#16 = .ldI 0x123 ∧
    decode 0b1011001100000000#16 = .jpV0 0x300 ∧ decode 0b1100001100001111#16 = .rnd 3 0x0F ∧
    decode 0b1101000100100101#16 = .drw 1 2 5 := by decide
theorem test_decode_classE : decode 0b1110000110011110#16 = .skp 1 ∧ decode 0b1110000110100001#16 = .sknp 1 := by decide
theorem test_decode_classF : decode 0b1111001000000111#16 = .ldVxDt 2 ∧ decode 0b1111000100001010#16 = .ldVxK 1 ∧
    decode 0b1111000100010101#16 = .ldDt 1 ∧ decode 0b1111000100011000#16 = .ldSt 1 ∧
    decode 0b1111000100011110#16 = .addI 1 := by decide
theorem test_decode_classF_memory : decode 0b1111000100101001#16 = .ldF 1 ∧ decode 0b1111000100110011#16 = .ldB 1 ∧
    decode 0b1111001001010101#16 = .ldStore 2 ∧ decode 0b1111001001100101#16 = .ldLoad 2 := by decide
/-- The examples of R76 and V0.4 to V0.8. -/
theorem test_decode_unmatched : decode 0x5121#16 = .unmatched 0x5121 ∧ decode 0x8128#16 = .unmatched 0x8128 ∧
    decode 0x812F#16 = .unmatched 0x812F ∧ decode 0xE19F#16 = .unmatched 0xE19F ∧ decode 0xF100#16 = .unmatched 0xF100 := by
  decide
theorem test_decodeBytes : decodeBytes [0x60, 0x05, 0x70] = .ok (.ldImm 0 5, [0x70]) ∧
    decodeBytes [0x60] = .error "truncated word" := ⟨rfl, rfl⟩
theorem test_decodeTableWord : decodeTableWord 16 0xD12F = some (.drw 1 2 0xF) := by decide

/-! ### One step of an instruction placed at 0x200 -/

/-- The state after the next step runs the word `w`. -/
def after (s : State) (w : Nat) : Option State :=
  match step (s.withFetchWord 16 w) with
  | .next t => some t
  | .fault _ => none
  | .refused _ => none

/-- V1 and V2 as given, all else as after construction. -/
def regs12 (a b : Byte) : State := (State.reset.setReg 1 a).setReg 2 b

/-- V1 and VF as given, all else as after construction. -/
def regs1F (a b : Byte) : State := (State.reset.setReg 1 a).setReg 15 b

/-- What a test of an ALU instruction looks at. -/
def v1vf (t : State) : Byte × Byte := (t.reg 1, t.reg 15)

-- V0.3 and V0.4
theorem test_sys : (after State.reset 0x00E1).map (fun t => (t.pc, t.diags)) = some (0x202#16, []) := by decide
theorem test_unmatched : (after State.reset 0x5121).map (fun t => (t.pc, t.diags, t.status)) =
    some (0x202#16, [⟨0x200, 0x5121⟩], .running) := by decide

-- V1.1, V1.2
theorem test_jp : (after State.reset 0x1234).map (·.pc) = some 0x234#16 := by decide
theorem test_jp_odd : (after State.reset 0x1201).map (·.pc) = some 0x201#16 := by decide
-- V1.3, V1.5
theorem test_call : (after State.reset 0x2300).map (fun t => (t.stack[0], t.SP, t.pc)) = some (0x202#16, 1, 0x300#16) := by
  decide
theorem test_call_overflow : (after { State.reset with SP := 16 } 0x2300).map
    (fun t => (t.status, t.faultNumber, t.faultPc, t.SP, t.pc)) = some (.halted, 1#3, 0x200#16, 16, 0x202#16) := by decide
-- V1.4, V1.6
theorem test_ret : (after { State.reset with SP := 1, stack := State.reset.stack.set 0 0x202, pc := 0x300 } 0x00EE).map
    (fun t => (t.SP, t.pc, t.stack[0])) = some (0, 0x202#16, 0x202#16) := by decide
theorem test_ret_underflow : (after State.reset 0x00EE).map (fun t => (t.status, t.faultNumber, t.faultPc)) =
    some (.halted, 2#3, 0x200#16) := by decide
-- V1.7, V1.8
theorem test_seImm : (after (regs12 0x42 0) 0x3142).map (·.pc) = some 0x204#16 := by decide
theorem test_seImm_not : (after (regs12 0x42 0) 0x3143).map (·.pc) = some 0x202#16 := by decide
-- V1.9, V1.10
theorem test_sneImm_not : (after (regs12 0x42 0) 0x4142).map (·.pc) = some 0x202#16 := by decide
theorem test_sneImm : (after (regs12 0x42 0) 0x4100).map (·.pc) = some 0x204#16 := by decide
-- V1.11, V1.12
theorem test_seReg : (after (regs12 7 7) 0x5120).map (·.pc) = some 0x204#16 := by decide
theorem test_seReg_not : (after (regs12 7 8) 0x5120).map (·.pc) = some 0x202#16 := by decide
-- V1.14, V1.15
theorem test_sneReg : (after (regs12 7 8) 0x9120).map (·.pc) = some 0x204#16 := by decide
theorem test_sneReg_self : (after State.reset 0x9110).map (·.pc) = some 0x202#16 := by decide
-- V1.17, V1.18
theorem test_jpV0 : (after (State.reset.setReg 0 0x10) 0xB300).map (·.pc) = some 0x310#16 := by decide
theorem test_jpV0_beyond : (after (State.reset.setReg 0 0xFF) 0xBFFF).map (·.pc) = some 0x10FE#16 := by decide

-- V2.25, V2.26
theorem test_ldImm : (after State.reset 0x6005).map (·.reg 0) = some 5#8 := by decide
theorem test_ldImm_vF : (after (regs1F 0 1) 0x6F00).map (·.reg 15) = some 0#8 := by decide
-- V2.27
theorem test_addImm : (after ((State.reset.setReg 3 0xFF).setReg 15 0x77) 0x7301).map (fun t => (t.reg 3, t.reg 15)) =
    some (0#8, 0x77#8) := by decide
-- V2.28 to V2.31
theorem test_ldReg : (after (regs12 0 0x9A) 0x8120).map (·.reg 1) = some 0x9A#8 := by decide
theorem test_or : (after (regs12 0xF0 0x0F) 0x8121).map v1vf = some (0xFF#8, 0#8) := by decide
theorem test_and : (after (regs12 0xF0 0x3C) 0x8122).map v1vf = some (0x30#8, 0#8) := by decide
theorem test_xor : (after (regs12 0xFF 0x0F) 0x8123).map v1vf = some (0xF0#8, 0#8) := by decide
-- V2.1, V2.5
theorem test_addReg : (after (regs12 0xFF 1) 0x8124).map v1vf = some (0#8, 1#8) := by decide
theorem test_addReg_old_vF : (after (regs1F 0x05 0xFF) 0x81F4).map v1vf = some (0x04#8, 1#8) := by decide
-- V2.8, V2.10
theorem test_sub_borrow : (after (regs12 3 5) 0x8125).map v1vf = some (0xFE#8, 0#8) := by decide
theorem test_sub_into_vF : (after ((State.reset.setReg 15 5).setReg 2 3) 0x8F25).map (·.reg 15) = some 2#8 := by decide
-- V2.14, V2.16
theorem test_shr : (after (regs12 0x05 0xFF) 0x8126).map v1vf = some (0x02#8, 1#8) := by decide
theorem test_shr_vF : (after (regs1F 0 0x33) 0x8F06).map (·.reg 15) = some 0x19#8 := by decide
-- V2.17, V2.18
theorem test_subn : (after (regs12 3 5) 0x8127).map v1vf = some (2#8, 1#8) := by decide
theorem test_subn_borrow : (after (regs12 5 3) 0x8127).map v1vf = some (0xFE#8, 0#8) := by decide
-- V2.21, V2.23
theorem test_shl : (after (regs12 0x81 0) 0x810E).map v1vf = some (0x02#8, 1#8) := by decide
theorem test_shl_vF : (after (regs1F 0 0xC0) 0x8F0E).map (·.reg 15) = some 0x80#8 := by decide
-- V2.34, V2.35: the draw is a free value
theorem test_rnd_zero : (after State.reset 0xC300).map (·.reg 3) = some 0#8 := by
  show some (Config.rnd 0 &&& 0#8) = some 0#8
  rw [BitVec.and_zero]
theorem test_rnd_all : (after State.reset 0xC3FF).map (fun t => (t.reg 3, t.draws)) = some (Config.rnd 0, 1) := by
  show some (Config.rnd 0 &&& 0xFF#8, 1) = some (Config.rnd 0, 1)
  rw [show (0xFF#8) = BitVec.allOnes 8 from rfl, BitVec.and_allOnes]

-- V3.1
theorem test_ldI : (after State.reset 0xA123).map (·.I) = some 0x123#16 := by decide
-- V3.2, V3.3
theorem test_addI_wraps : (after { regs1F 1 0x77 with I := 0xFFF } 0xF11E).map (fun t => (t.I, t.reg 15)) =
    some (0#16, 0x77#8) := by decide
theorem test_addI : (after { regs12 0xFF 0 with I := 0x100 } 0xF11E).map (·.I) = some 0x1FF#16 := by decide
-- V3.4, V3.6
theorem test_ldF : (after (regs12 0x0A 0) 0xF129).map (·.I) = some 0x032#16 := by decide
theorem test_ldF_past_font : (after (regs12 0xFF 0) 0xF129).map (·.I) = some 0x4FB#16 := by decide
-- V3.7, V3.11
theorem test_ldB : (after { regs12 254 0 with I := 0x300 } 0xF133).map (fun t => t.bytesAt 0x300 3) =
    some [2#8, 5#8, 4#8] := by decide
theorem test_ldB_range : (after { regs12 7 0 with I := 0xFFE } 0xF133).map
    (fun t => (t.status, t.faultNumber, t.faultPc, t.byte 0xFFE)) = some (.halted, 3#3, 0x200#16, 0#8) := by decide
-- V3.12, V3.17
theorem test_ldStore : (after { (regs12 2 3).setReg 0 1 with I := 0x300 } 0xF255).map
    (fun t => (t.bytesAt 0x300 4, t.I)) = some ([1#8, 2#8, 3#8, 0#8], 0x300#16) := by decide
theorem test_ldStore_over_font : (after (State.reset.setReg 0 0xAA) 0xF055).map (·.byte 0) = some 0xAA#8 := by decide
-- V3.15, V3.16
theorem test_ldLoad : (after ({ State.reset with I := 0x300 }.storeBytes 0x300 [2, 5, 4, 9]) 0xF265).map
    (fun t => (t.reg 0, t.reg 1, t.reg 2, t.reg 3, t.I)) = some (2#8, 5#8, 4#8, 0#8, 0x300#16) := by decide
theorem test_ldLoad_font : (after State.reset 0xF065).map (·.reg 0) = some 0xF0#8 := by decide

/-- One row of a sprite at 0x300, I pointing to it. -/
def sprite1 (b : Byte) : State := { State.reset with I := 0x300 }.storeBytes 0x300 [b]

-- V4.2, V4.5
theorem test_drw_wraps : (after ((sprite1 0xC0).setReg 0 63) 0xD011).map
    (fun t => (t.pixel 63 0, t.pixel 0 0, t.pixel 1 0, t.reg 15)) = some (true, true, false, 0#8) := by decide
theorem test_drw_collides : (after { sprite1 0x80 with pix := Display.toggle Display.clear 0 0 } 0xD011).map
    (fun t => (t.pixel 0 0, t.reg 15)) = some (false, 1#8) := by decide
-- V4.11
theorem test_cls : (after { regs1F 0 1 with pix := Display.toggle Display.clear 63 31 } 0x00E0).map
    (fun t => (t.pixel 63 31, t.reg 15)) = some (false, 1#8) := by decide

/-- Key 5 pressed. -/
def key5 : State := State.reset.keyDown 5

-- V5.1, V5.4
theorem test_skp : (after (key5.setReg 1 5) 0xE19E).map (·.pc) = some 0x204#16 := by decide
theorem test_skp_range : (after (State.reset.setReg 1 0x10) 0xE19E).map (fun t => (t.status, t.faultNumber, t.faultPc)) =
    some (.halted, 4#3, 0x200#16) := by decide
-- V5.3, and the same with the key pressed (R191)
theorem test_sknp : (after (State.reset.setReg 1 5) 0xE1A1).map (·.pc) = some 0x204#16 := by decide
theorem test_sknp_pressed : (after (key5.setReg 1 5) 0xE1A1).map (·.pc) = some 0x202#16 := by decide
-- V5.7
theorem test_ldVxDt : (after { State.reset with DT := 0x3C } 0xF207).map (·.reg 2) = some 0x3C#8 := by decide
-- V5.5, V5.6
theorem test_ldVxK_waits : (after (State.reset.setReg 1 7) 0xF10A).map (fun t => (t.pc, t.reg 1)) =
    some (0x200#16, 7#8) := by decide
theorem test_ldVxK : (after ((State.reset.keyDown 9).keyDown 3) 0xF10A).map (fun t => (t.pc, t.reg 1, t.key[3])) =
    some (0x202#16, 3#8, true) := by decide
-- V5.8, V5.10
theorem test_ldDt : (after (regs12 5 0) 0xF115).map (·.DT) = some 5#8 := by decide
theorem test_ldSt : (after (regs12 1 0) 0xF118).map (fun t => (t.ST, t.soundActive)) = some (1#8, true) := by decide

-- V5.12, V5.15
theorem test_tick : ({ State.reset with DT := 2 }.tick.DT, { State.reset with DT := 2 }.tick.ST) = (1#8, 0#8) := by decide
theorem test_tick_halted : { State.reset with DT := 5, status := .halted }.tick.DT = 5#8 := by decide
-- W11
theorem test_keyboard : keyboardKey 'x' = some 0 ∧ keyboardKey 'v' = some 0xF ∧ keyboardKey '4' = some 0xC := by decide
-- V0.10, V0.12
theorem test_fetch_range : step { State.reset with pc := 0x1000 } =
    .next { State.reset with pc := 0x1000, status := .halted, faultCode := .memRange, faultPc := 0x1000, loadOpen := false } :=
  rfl
theorem test_fetch_odd : (after { State.reset with pc := 0x201 } 0x6007).map (fun t => (t.reg 0, t.pc)) =
    some (7#8, 0x203#16) := by decide

/-! ### Witnesses: states and operands that meet the hypotheses of the statements -/

/-- A core at the edges: I and the key latch chosen, V all 0. -/
def atI (i : Word) : State := { State.reset with I := i }

theorem witness_DecodeOfEncodeIsTheInstruction : (Instr.sys 0xFFF).wf = true ∧ (Instr.unmatched 0xFFFF).wf = true ∧
    (Instr.drw 15 15 15).wf = true := by decide

/-- Every row of the opcode map has a word, so no `RowDecodes` is empty. (In the theorems below the witness of a statement bears
its name.) -/
theorem witness_RowDecodes : ∀ r ∈ opcodeMap, r.2.1 &&& r.1 = r.2.1 := by
  intro r hr
  have h : opcodeMap.all (fun r => r.2.1 &&& r.1 == r.2.1) = true := by decide
  simpa using List.all_eq_true.mp h r hr

/-- Both clauses: the words of CLS and SYS, and a word of SYS and of the catch-all. -/
theorem witness_OpcodeRowsOverlapOnlyAsListed :
    ((opcodeMap[0]).hits 0x00E0 = true ∧ (opcodeMap[2]).hits 0x00E0 = true) ∧
    ((opcodeMap[2]).hits 0x0000 = true ∧ (opcodeMap[35]).hits 0x0000 = true) := by decide

/-- The reset clauses at the edges of the font. -/
theorem witness_ResetHoldsTheTabledValues : State.reset.byte 0 = 0xF0 ∧ State.reset.byte 79 = 0x80 ∧ State.reset.byte 80 = 0 := by decide

/-- The longest image that loads and the shortest that does not. -/
theorem witness_ConstructionPlacesFontAndImage : (List.replicate 3583 (0 : Byte)).length < 3584 ∧
    3584 ≤ (List.replicate 3584 (0 : Byte)).length := by
  rw [List.length_replicate, List.length_replicate]; omega

/-- A fetch at the last address that has a whole word, with no event and with a CPU step listed. -/
theorem witness_StepRunsTheDecodedInstruction :
    let s : State := { State.reset with pc := 0xFFE }
    s.status = .running ∧ s.pc.toNat ≤ 0xFFE ∧ (Instr.sys 0).wf = true ∧
      decode (wordOf (s.byte s.pc.toNat) (s.byte (s.pc.toNat + 1))) = .sys 0 ∧ s.events = [] ∧
      (s.withEvents [.cpuStep]).events = .cpuStep :: [] :=
  ⟨rfl, Nat.le_refl _, rfl, rfl, rfl, rfl⟩

theorem witness_FetchBeyondMemoryTakesMemRange : ∀ p ∈ [0xFFF#16, 0x10FE#16],
    let s : State := { State.reset with pc := p }
    s.status = .running ∧ s.events = [] ∧ 0xFFE < s.pc.toNat := by
  intro p hp
  refine ⟨rfl, rfl, ?_⟩
  rcases List.mem_pair.mp hp with rfl | rfl <;> exact Nat.le_of_ble_eq_true rfl

/-- Halted and Stopped, with a tick next. -/
theorem witness_OnlyResetLeavesHaltedOrStopped : ∀ st ∈ [Status.halted, Status.stopped],
    let s : State := { State.reset with status := st, events := [.tick] }
    s.status ≠ .running ∧ (∀ rest, s.events ≠ .rst :: rest) ∧ ∃ t, step s = .next t := by
  intro st h
  refine ⟨?_, fun rest => by simp, _, rfl⟩
  rcases List.mem_pair.mp h with rfl | rfl <;> decide

theorem witness_StepStopsOnlyOnALoad : ∀ a d rest, State.reset.events ≠ .load a d :: rest := by
  intro a d rest; simp [State.reset]

theorem witness_SysDoesNothing : (0x0000#16 &&& 0xF000#16 = 0x0000#16 ∧ 0x0000#16 ≠ 0x00E0#16 ∧ 0x0000#16 ≠ 0x00EE#16) ∧
    (0x0FFF#16 &&& 0xF000#16 = 0x0000#16 ∧ 0x0FFF#16 ≠ 0x00E0#16 ∧ 0x0FFF#16 ≠ 0x00EE#16) := by decide

/-- Both sides of the clause on the next fetch. -/
theorem witness_JumpSetsPc : (after State.reset 0x1FFF).map (·.fetch) = some none ∧
    (after State.reset 0x1FFE).map (·.fetch) = some (some 0x0000#16) := by decide

theorem witness_CallPushesTheReturnAddress : State.reset.SP.val = (0 : Fin 16).val ∧
    ({ State.reset with SP := 15 } : State).SP.val = (15 : Fin 16).val := by decide

theorem witness_RetPopsTheReturnAddress : ({ State.reset with SP := 1 } : State).SP.val = (0 : Fin 16).val + 1 ∧
    ({ State.reset with SP := 16 } : State).SP.val = (15 : Fin 16).val + 1 := by decide

theorem witness_StackDepthViolationsAreFatal : ({ State.reset with SP := 16 } : State).SP.val = 16 ∧ State.reset.SP.val = 0 := by decide

theorem witness_RetAfterCallRestoresPc : ∃ s t u : State, s.SP.val < 16 ∧ exec (.call 0x300) s = .next t ∧ u.stack = t.stack ∧
    u.SP = t.SP := ⟨{ State.reset with SP := 15 }, _, _, by decide, rfl, rfl, rfl⟩

theorem witness_SixteenCallsSucceedThenOverflow : State.reset.SP.val + (List.replicate 16 (0x200 : Addr)).length = 16 ∧
    ({ State.reset with SP := 16 } : State).SP.val + ([] : List Addr).length = 16 := by decide

/-- The last I each transfer fits at, and the first it does not (`TransfersPastMemoryTakeMemRange`). -/
theorem witness_LdBStoresTheDecimalDigits : (atI 0xFFD).I.toNat + 2 ≤ 0xFFF ∧ 0xFFF < (atI 0xFFE).I.toNat + 2 := by decide

/-- The same for `LdLoadLoadsTheRegisters`. -/
theorem witness_LdStoreStoresTheRegisters : (atI 0xFF0).I.toNat + (15 : Reg).val ≤ 0xFFF ∧
    0xFFF < (atI 0xFF1).I.toNat + (15 : Reg).val := by decide

theorem witness_DrwXorsTheSpriteAndReportsCollision : ((0 : Nibble).toNat = 0) ∧ (atI 0xFF1).I.toNat + (15 : Nibble).toNat - 1 ≤ 0xFFF ∧
    0 < (2 : Nibble).toNat ∧ 0xFFF < (atI 0xFFF).I.toNat + (2 : Nibble).toNat - 1 := by decide

theorem witness_LoadAfterStoreRestoresRegisters : ∃ s t u : State, s.I.toNat + (15 : Reg).val ≤ 0xFFF ∧ exec (.ldStore 15) s = .next t ∧
    u.mem = t.mem ∧ u.I = s.I := ⟨atI 0xFF0, _, _, by decide, rfl, rfl, rfl⟩

theorem witness_FetchSeesStoredWord : ∃ s t u : State, s.I.toNat + (15 : Reg).val ≤ 0xFFF ∧ (15 : Reg) ≤ 15 ∧
    (15 : Reg).val = (14 : Reg).val + 1 ∧ exec (.ldStore 15) s = .next t ∧ u.mem = t.mem ∧
    u.pc.toNat = s.I.toNat + (14 : Reg).val :=
  ⟨atI 0xFF0, _, { ((atI 0xFF0).storeBytes 0xFF0 ((atI 0xFF0).regsUpTo 15)) with pc := 0xFFE }, by decide, by decide,
    by decide, rfl, rfl, by decide⟩

/-- A pixel under a 1 bit, across the right edge, and one under none. -/
theorem witness_covers : ((sprite1 0x41).setReg 0 63).covers 0 1 1 0 0 ∧ ¬ State.reset.covers 0 0 0 5 0 :=
  ⟨⟨0, 1, by decide, by decide, by decide, by decide, by decide⟩, fun ⟨row, _, h, _⟩ => Nat.not_lt_zero row h⟩

/-- Two draws of one sprite row, with the coordinates kept; the first of them meets the hypotheses of
`CollisionMeansAPixelWasOn`, both those of `SecondDrawCollidesWhenSpriteHasABit`. -/
theorem witness_DrawingTwiceRestoresTheDisplay : ∃ t u : State, ((1 : Nibble).toNat = 0 ∨
      (sprite1 0x80).I.toNat + (1 : Nibble).toNat - 1 ≤ 0xFFF) ∧ exec (.drw 0 1 1) (sprite1 0x80) = .next t ∧
    t.reg 0 = (sprite1 0x80).reg 0 ∧ t.reg 1 = (sprite1 0x80).reg 1 ∧ exec (.drw 0 1 1) t = .next u :=
  ⟨_, _, by decide, rfl, by decide, by decide, rfl⟩

theorem witness_SkipsOnAKey : (key5.setReg 1 15).reg 1 = 15 ∧ ((key5.setReg 1 15).reg 1).toNat = (15 : KeyIx).val ∧
    (key5.reg 1).toNat = (0 : KeyIx).val := by decide

theorem witness_KeyNumberAboveFifteenIsFatal : 15 < ((State.reset.setReg 1 16).reg 1).toNat ∧
    15 < ((State.reset.setReg 1 255).reg 1).toNat := by decide

theorem witness_KeyWaitTakesTheLowestKey : key5.key[(5 : KeyIx)] = true ∧ ∀ j : KeyIx, j < 5 → key5.key[j] = false := by decide

theorem witness_KeyWaitRunsAgainWithNoKey :
    let s := (State.reset.withFetchWord 16 0xF10A)
    (∀ j : KeyIx, s.key[j] = false) ∧ s.status = .running ∧ s.events = [] ∧ s.fetch = some (encode (.ldVxK 1)) := by
  decide

theorem witness_TicksCountTheTimersDown :
    let s : State := { State.reset with DT := 5, events := List.replicate 6 .tick ++ [.cpuStep] }
    s.status = .running ∧ s.events = List.replicate 6 Event.tick ++ [.cpuStep] := by decide

theorem witness_HostMovesChangeOnlyTheirOwn : ∀ e ∈ [Event.keyDown 15, .keyRelease 0, .stop, .render],
    let s : State := { State.reset with events := [e] }
    s.status = .running ∧ s.events = e :: [] := by decide

/-- A core built with another FONT: its last byte differs from the default. -/
def otherFont : State := State.constructed (Config.fontVector.set 79 0xFF) [0x12, 0x00]

-- R244, R11: a Halted core with another FONT gets that FONT again and loses the image
theorem test_rst_keeps_FONT : ({ otherFont with status := .halted }.rst.byte 79, { otherFont with status := .halted }.rst.byte 80,
    { otherFont with status := .halted }.rst.byte 0x200, { otherFont with status := .halted }.rst.status) =
    (0xFF#8, 0#8, 0#8, .running) := by decide
-- R244, R56, default FONT: a font byte that was written over is back
theorem test_rst_restores_font : ((State.reset.storeBytes 0 [0xAA]).rst.byte 0, (State.reset.storeBytes 0 [0xAA]).rst.mem) =
    (0xF0#8, []) := by decide

theorem witness_RstConstructsAgain : ({ State.reset with status := .halted, events := [.rst] } : State).events = .rst :: [] := by decide

/-- The ends of the load window, the address above it, the address below it, and the closed port. -/
theorem witness_LoadPortWritesTheImageBeforeTheFirstStep : (∀ a ∈ [0x200#12, 0xFFE#12],
      State.reset.status = .running ∧ State.reset.loadOpen = true ∧ 0x200 ≤ a.toNat ∧ a.toNat ≤ 0xFFE) ∧
    (0xFFF#12).toNat = 0xFFF ∧ (0x1FF#12).toNat < 0x200 ∧ State.reset.closeLoad.loadOpen = false ∧
    ({ State.reset with events := [.load 0x200 1] } : State).events = .load 0x200 1 :: [] := by
  refine ⟨fun a ha => ⟨rfl, rfl, ?_⟩, rfl, Nat.lt_succ_self _, rfl, rfl⟩
  rcases List.mem_pair.mp ha with rfl | rfl <;> simp

/-- A state other than reset that satisfies the invariant and takes a step. -/
theorem witness_EveryStepKeepsTheInvariant : ∃ s t : State, s.Inv ∧ step s = .next t :=
  ⟨{ State.reset with pc := 0x10FE, I := 0xFFF }, _,
    ⟨rfl, by decide, Nat.le_refl _, by decide, by decide, fun _ => rfl⟩, rfl⟩

/-- The same for `NoInstructionReadsTheSoundTimer`. -/
theorem witness_InstructionsChangeOnlyTheirParts : ∃ t, exec (.addReg 1 15) State.reset = .next t := ⟨_, rfl⟩

/-- Two states that differ in V1 only, and an instruction that reads V2 only. -/
theorem witness_InstructionsReadOnlyTheirRegisters :
    let s := State.reset
    let s' := State.reset.setReg 1 9
    s' = { s with V := s'.V } ∧ (∀ r ∈ (Instr.ldReg 3 2).readsV, s'.reg r = s.reg r) ∧
      (∃ t, exec (.ldReg 3 2) s = .next t) ∧ ∃ t', exec (.ldReg 3 2) s' = .next t' :=
  ⟨rfl, by decide, ⟨_, rfl⟩, ⟨_, rfl⟩⟩

/-- The last byte each storing instruction writes, changed. -/
theorem witness_MemoryChangesOnlyUnderStores :
    ((after { regs12 254 0 with I := 0xFFD } 0xF133).map (·.byte 0xFFF)) = some 4#8 ∧
    ((after { State.reset.setReg 15 7 with I := 0xFF0 } 0xFF55).map (·.byte 0xFFF)) = some 7#8 ∧
    State.reset.byte 0xFFF = 0#8 := by decide

/-- Each cause of the table at its edge, and just inside it. -/
theorem witness_FaultsAreExactlyTheTabledOnes :
    (Instr.call 0).faultCause { State.reset with SP := 16 } = .stackOverflow ∧
    (Instr.call 0).faultCause { State.reset with SP := 15 } = .none ∧
    Instr.ret.faultCause State.reset = .stackUnderflow ∧ Instr.ret.faultCause { State.reset with SP := 1 } = .none ∧
    (Instr.ldB 1).faultCause (atI 0xFFE) = .memRange ∧ (Instr.ldB 1).faultCause (atI 0xFFD) = .none ∧
    (Instr.ldStore 15).faultCause (atI 0xFF1) = .memRange ∧ (Instr.ldLoad 15).faultCause (atI 0xFF0) = .none ∧
    (Instr.drw 0 1 5).faultCause (atI 0xFFC) = .memRange ∧ (Instr.drw 0 1 4).faultCause (atI 0xFFC) = .none ∧
    (Instr.skp 1).faultCause (State.reset.setReg 1 16) = .keyRange ∧
    (Instr.sknp 1).faultCause (State.reset.setReg 1 15) = .none := by decide

/-- A jump to its own address at 0x200. -/
theorem witness_ParkedStateStaysAsItIs :
    let s := (State.reset.withFetchWord 16 0x1200).closeLoad
    s.Parked ∧ s.events = [] ∧ s.loadOpen = false :=
  ⟨⟨rfl, 0x1200#16, 0x200, by decide, by decide, by decide⟩, rfl, rfl⟩

end Sys2Proof.Tests
end

/-! PROOFS. The state: an equation per branch of the instructions that branch, the effect and the frame of every instruction, the
invariant at reset and under every event, and what an instruction reads. -/

namespace Sys2Proof.Machine

/-! ## The branches of the instructions -/

/-! ### Equations of the branching instructions -/

/-- R100 on an empty stack. -/
theorem execRet_of_empty {s : State} (h : s.SP.val = 0) : execRet s = s.raise .stackUnderflow := by
  rw [execRet, dif_pos h]

/-- R100 with `j` the top entry. -/
theorem execRet_of_live {s : State} {j : Fin 16} (h : s.SP.val = j.val + 1) :
    execRet s = .next { s with SP := j.castSucc, pc := s.stack[j] } := by
  simp [execRet, h]

/-- R102 on a full stack. -/
theorem execCall_of_full {s : State} (nnn : Addr) (h : s.SP.val = 16) : execCall nnn s = s.raise .stackOverflow := by
  rw [execCall, dif_pos h]

/-- R102 with `j` the first free entry. -/
theorem execCall_of_room {s : State} {j : Fin 16} (nnn : Addr) (h : s.SP.val = j.val) :
    execCall nnn s = .next { s with stack := s.stack.set j s.pc, SP := j.succ, pc := target nnn } := by
  simp [execCall, h, j.isLt.ne]

/-- The stack is empty or has a top entry. -/
theorem State.empty_or_live (s : State) : s.SP.val = 0 ∨ ∃ j : Fin 16, s.SP.val = j.val + 1 := by
  by_cases h : s.SP.val = 0
  · exact .inl h
  · exact .inr ⟨⟨s.SP.val - 1, by omega⟩, by simp only; omega⟩

/-- The stack is full or has a free entry. -/
theorem State.full_or_room (s : State) : s.SP.val = 16 ∨ ∃ j : Fin 16, s.SP.val = j.val := by
  by_cases h : s.SP.val = 16
  · exact .inl h
  · exact .inr ⟨⟨s.SP.val, by omega⟩, rfl⟩

/-- R190 and R191 with a key number in V[x]. -/
theorem execSkp_of_key {s : State} {x : Reg} {k : KeyIx} (h : keyOf (s.reg x) = some k) :
    execSkp x s = .next (s.skipIf s.key[k]) := by
  simp only [execSkp, h]

theorem execSknp_of_key {s : State} {x : Reg} {k : KeyIx} (h : keyOf (s.reg x) = some k) :
    execSknp x s = .next (s.skipIf (!s.key[k])) := by
  simp only [execSknp, h]

/-- R190 and R191 with no key number in V[x]. -/
theorem execSkp_of_range {s : State} {x : Reg} (h : keyOf (s.reg x) = none) : execSkp x s = s.raise .keyRange := by
  simp only [execSkp, h]

theorem execSknp_of_range {s : State} {x : Reg} (h : keyOf (s.reg x) = none) : execSknp x s = s.raise .keyRange := by
  simp only [execSknp, h]

/-- R193 with `k` the lowest pressed key. -/
theorem execLdVxK_of_key {s : State} (x : Reg) {k : KeyIx} (h : firstKey s.key = some k) :
    execLdVxK x s = .next (s.setReg x (BitVec.ofNat 8 k.val)) := by
  simp only [execLdVxK, h]

/-- R193 with no key pressed. -/
theorem execLdVxK_of_none {s : State} (x : Reg) (h : firstKey s.key = none) :
    execLdVxK x s = .next { s with pc := s.pc - 2 } := by
  simp only [execLdVxK, h]

/-! ### All a branching instruction can do -/

theorem execRet_cases {s t : State} (h : execRet s = .next t) :
    (∃ j : Fin 16, s.SP.val = j.val + 1 ∧ t = { s with SP := j.castSucc, pc := s.stack[j] }) ∨
      t = s.raiseAt s.pcI .stackUnderflow := by
  obtain he | ⟨j, hj⟩ := s.empty_or_live
  · rw [execRet_of_empty he] at h
    exact .inr (Host.Outcome.next.inj h).symm
  · rw [execRet_of_live hj] at h
    exact .inl ⟨j, hj, (Host.Outcome.next.inj h).symm⟩

theorem execCall_cases {nnn : Addr} {s t : State} (h : execCall nnn s = .next t) :
    (∃ j : Fin 16, s.SP.val = j.val ∧
      t = { s with stack := s.stack.set j s.pc, SP := j.succ, pc := target nnn }) ∨
      t = s.raiseAt s.pcI .stackOverflow := by
  obtain he | ⟨j, hj⟩ := s.full_or_room
  · rw [execCall_of_full nnn he] at h
    exact .inr (Host.Outcome.next.inj h).symm
  · rw [execCall_of_room nnn hj] at h
    exact .inl ⟨j, hj, (Host.Outcome.next.inj h).symm⟩

theorem execSkp_cases {x : Reg} {s t : State} (h : execSkp x s = .next t) :
    (∃ c, t = s.skipIf c) ∨ t = s.raiseAt s.pcI .keyRange := by
  cases hk : keyOf (s.reg x) with
  | some k => rw [execSkp_of_key hk] at h; exact .inl ⟨_, (Host.Outcome.next.inj h).symm⟩
  | none => rw [execSkp_of_range hk] at h; exact .inr (Host.Outcome.next.inj h).symm

theorem execSknp_cases {x : Reg} {s t : State} (h : execSknp x s = .next t) :
    (∃ c, t = s.skipIf c) ∨ t = s.raiseAt s.pcI .keyRange := by
  cases hk : keyOf (s.reg x) with
  | some k => rw [execSknp_of_key hk] at h; exact .inl ⟨_, (Host.Outcome.next.inj h).symm⟩
  | none => rw [execSknp_of_range hk] at h; exact .inr (Host.Outcome.next.inj h).symm

theorem execLdVxK_cases {x : Reg} {s t : State} (h : execLdVxK x s = .next t) :
    (∃ v, t = s.setReg x v) ∨ t = { s with pc := s.pc - 2 } := by
  cases hk : firstKey s.key with
  | some k => rw [execLdVxK_of_key x hk] at h; exact .inl ⟨_, (Host.Outcome.next.inj h).symm⟩
  | none => rw [execLdVxK_of_none x hk] at h; exact .inr (Host.Outcome.next.inj h).symm

/-- What an instruction can do to memory, the status and the fault record: take a fault at its own address and nothing else
(R212), store bytes in range at I and nothing else (R51, R54), or leave all of them alone. -/
inductive Effect (s t : State) : Prop where
  | fault (c : FaultCode) (hc : c ≠ .none) (ht : t = s.raiseAt s.pcI c)
  | store (bs : List Byte) (hbs : s.base + bs.length ≤ 4096) (ht : t = s.storeBytes s.base bs)
  | quiet (hmem : t.mem = s.mem) (hstatus : t.status = s.status) (hcode : t.faultCode = s.faultCode)
      (hpc : t.faultPc = s.faultPc)

/-- A checked transfer faults where its range is not in memory. -/
theorem Effect.of_checked {s d t : State} {n : Nat} (h : s.checked s.base n d = .next t)
    (hd : s.base + n ≤ 4096 ∨ n = 0 → Effect s d) : Effect s t := by
  obtain ⟨hm, rfl⟩ | ⟨-, rfl⟩ := State.checked_cases h
  · exact hd ((inMemory_iff _ _).mp hm).symm
  · exact .fault .memRange (by decide) rfl

theorem Effect.of_skip (s : State) (c : Bool) : Effect s (s.skipIf c) :=
  .quiet (s.skipIf_mem c) (s.skipIf_status c) (s.skipIf_faultCode c) (s.skipIf_faultPc c)

/-- A skip on a key, or its fault. -/
theorem Effect.of_key_skip {s t : State} (h : (∃ c, t = s.skipIf c) ∨ t = s.raiseAt s.pcI .keyRange) : Effect s t := by
  obtain ⟨c, rfl⟩ | rfl := h
  · exact .of_skip s c
  · exact .fault .keyRange (by decide) rfl

/-- Every instruction has one of the three effects. -/
theorem exec_effect {i : Instr} {s t : State} (h : exec i s = .next t) : Effect s t := by
  cases i with
  | ret =>
    obtain ⟨j, -, rfl⟩ | rfl := execRet_cases h
    · exact .quiet rfl rfl rfl rfl
    · exact .fault .stackUnderflow (by decide) rfl
  | call nnn =>
    obtain ⟨j, -, rfl⟩ | rfl := execCall_cases h
    · exact .quiet rfl rfl rfl rfl
    · exact .fault .stackOverflow (by decide) rfl
  | skp x => exact .of_key_skip (execSkp_cases h)
  | sknp x => exact .of_key_skip (execSknp_cases h)
  | ldVxK x =>
    obtain ⟨v, rfl⟩ | rfl := execLdVxK_cases h <;> exact .quiet rfl rfl rfl rfl
  | drw x y n => exact .of_checked h fun _ => .quiet rfl rfl rfl rfl
  | ldLoad x => exact .of_checked h fun _ => .quiet (by simp) (by simp) (by simp) (by simp)
  | ldB x => exact .of_checked h fun hn => .store _ (by simpa [bcdDigits] using hn) rfl
  | ldStore x => exact .of_checked h fun hn => .store _ (by simpa [State.length_regsUpTo] using hn) rfl
  | seImm _ _ | sneImm _ _ | seReg _ _ | sneReg _ _ =>
    obtain rfl := Host.Outcome.next.inj h
    exact .of_skip s _
  | _ =>
    obtain rfl := Host.Outcome.next.inj h
    exact .quiet rfl rfl rfl rfl

/-! ## The frame of an instruction -/

/-! ### A write of one field changes its part only -/

theorem State.frame_pix (s : State) (d : Display) : Frame [.pix] s { s with pix := d } := by
  intro p hp; cases p <;> simp_all [StatePart.same, State.reg, State.byte]

theorem State.frame_pc (s : State) (w : Word) : Frame [.pc] s { s with pc := w } := by
  intro p hp; cases p <;> simp_all [StatePart.same, State.reg, State.byte, State.pixel]

theorem State.frame_SP (s : State) (n : Fin 17) : Frame [.SP] s { s with SP := n } := by
  intro p hp; cases p <;> simp_all [StatePart.same, State.reg, State.byte, State.pixel]

theorem State.frame_stack (s : State) (k : Vector Word 16) : Frame [.stack] s { s with stack := k } := by
  intro p hp; cases p <;> simp_all [StatePart.same, State.reg, State.byte, State.pixel]

theorem State.frame_I (s : State) (w : Word) : Frame [.I] s { s with I := w } := by
  intro p hp; cases p <;> simp_all [StatePart.same, State.reg, State.byte, State.pixel]

theorem State.frame_DT (s : State) (v : Byte) : Frame [.DT] s { s with DT := v } := by
  intro p hp; cases p <;> simp_all [StatePart.same, State.reg, State.byte, State.pixel]

theorem State.frame_ST (s : State) (v : Byte) : Frame [.ST] s { s with ST := v } := by
  intro p hp; cases p <;> simp_all [StatePart.same, State.reg, State.byte, State.pixel]

theorem State.frame_draws (s : State) (n : Nat) : Frame [.draws] s { s with draws := n } := by
  intro p hp; cases p <;> simp_all [StatePart.same, State.reg, State.byte, State.pixel]

theorem State.frame_diags (s : State) (ds : List Diagnostic) : Frame [.diags] s { s with diags := ds } := by
  intro p hp; cases p <;> simp_all [StatePart.same, State.reg, State.byte, State.pixel]

/-- Two changes one after the other change the parts of both. -/
theorem Frame.append {a b : List StatePart} {s t u : State} (h : Frame a s t) (h' : Frame b t u) :
    Frame (a ++ b) s u :=
  (h.mono fun _ => List.mem_append_left b).trans (h'.mono fun _ => List.mem_append_right a)

/-- A checked transfer changes what its effect changes, or takes a fault. -/
theorem Frame.of_checked {a : List StatePart} {s d t : State} {b n : Nat} (h : s.checked b n d = .next t)
    (hd : Frame a s d) : Frame (a ++ [.status, .faultRecord]) s t := by
  obtain ⟨-, rfl⟩ | ⟨-, rfl⟩ := State.checked_cases h
  · exact hd.mono fun _ => List.mem_append_left _
  · exact (s.frame_raiseAt _ _).mono fun _ => List.mem_append_right _

/-- A skip on a key, or its fault. -/
theorem Frame.of_key_skip {s t : State} (h : (∃ c, t = s.skipIf c) ∨ t = s.raiseAt s.pcI .keyRange) :
    Frame [.pc, .status, .faultRecord] s t := by
  obtain ⟨c, rfl⟩ | rfl := h
  · exact (s.frame_skipIf c).mono (by decide)
  · exact (s.frame_raiseAt _ _).mono (by decide)

/-- Every instruction changes only the parts the spec names it a writer of (R22, R24 to R32). -/
theorem exec_frame {i : Instr} {s t : State} (h : exec i s = .next t) : Frame i.mayChange s t := by
  cases i with
  | ret =>
    obtain ⟨j, -, rfl⟩ | rfl := execRet_cases h
    · exact ((s.frame_SP j.castSucc).append (State.frame_pc _ s.stack[j])).mono (by decide)
    · exact (s.frame_raiseAt _ _).mono (by decide)
  | call nnn =>
    obtain ⟨j, -, rfl⟩ | rfl := execCall_cases h
    · exact (((s.frame_SP j.succ).append (State.frame_stack _ (s.stack.set j s.pc))).append
        (State.frame_pc _ (target nnn))).mono (by simp [Instr.mayChange])
    · exact (s.frame_raiseAt _ _).mono (by simp [Instr.mayChange])
  | skp x => exact .of_key_skip (execSkp_cases h)
  | sknp x => exact .of_key_skip (execSknp_cases h)
  | ldVxK x =>
    obtain ⟨v, rfl⟩ | rfl := execLdVxK_cases h
    · exact (s.frame_setReg x v).mono (by simp [Instr.mayChange])
    · exact (s.frame_pc _).mono (by simp [Instr.mayChange])
  | drw x y n =>
    exact (Frame.of_checked h ((s.frame_pix _).append (State.frame_setReg _ vF _))).mono (by simp [Instr.mayChange])
  | ldB x | ldStore x => exact .of_checked h (s.frame_storeBytes _ _)
  | ldLoad x => exact .of_checked h (s.frame_loadRegs _ _)
  | cls => obtain rfl := Host.Outcome.next.inj h; exact s.frame_pix _
  | sys nnn => obtain rfl := Host.Outcome.next.inj h; exact .refl [] s
  | jp nnn | jpV0 nnn => obtain rfl := Host.Outcome.next.inj h; exact s.frame_pc _
  | seImm x nn | sneImm x nn | seReg x y | sneReg x y => obtain rfl := Host.Outcome.next.inj h; exact s.frame_skipIf _
  | ldImm x nn | addImm x nn | ldReg x y | or x y | and x y | xor x y | ldVxDt x =>
    obtain rfl := Host.Outcome.next.inj h; exact s.frame_setReg x _
  | addReg x y | sub x y | shr x y | subn x y | shl x y =>
    obtain rfl := Host.Outcome.next.inj h; exact s.frame_setFlagThenReg x _ _
  | rnd x nn => obtain rfl := Host.Outcome.next.inj h; exact (s.frame_setReg x _).append (State.frame_draws _ _)
  | ldI nnn | addI x | ldF x => obtain rfl := Host.Outcome.next.inj h; exact s.frame_I _
  | ldDt x => obtain rfl := Host.Outcome.next.inj h; exact s.frame_DT _
  | ldSt x => obtain rfl := Host.Outcome.next.inj h; exact s.frame_ST _
  | unmatched w => obtain rfl := Host.Outcome.next.inj h; exact s.frame_diags _

/-! ### The registers an instruction changes -/

theorem State.regFrame_setReg (s : State) (x : Reg) (v : Byte) : RegFrame [x] s (s.setReg x v) :=
  fun r hr => s.reg_setReg_of_ne x r v (by simpa [eq_comm] using hr)

theorem State.regFrame_setFlagThenReg (s : State) (x : Reg) (f v : Byte) :
    RegFrame [15, x] s (s.setFlagThenReg x f v) := by
  intro r hr
  obtain ⟨h15, hx⟩ : r ≠ 15 ∧ r ≠ x := by simpa using hr
  rw [State.reg_setFlagThenReg, if_neg hx.symm]
  exact if_neg h15.symm

/-- Loading n + 1 registers changes V[0] to V[n] only. -/
theorem State.regFrame_loadRegs (s : State) (base : Nat) (x : Reg) :
    RegFrame ((List.finRange 16).filter (fun r => decide (r ≤ x))) s (s.loadRegs base (x.val + 1)) := by
  intro r hr
  have hlt : x.val < r.val := by simpa using hr
  rw [State.reg_loadRegs _ _ _ (by omega), if_neg (by omega)]

theorem RegFrame.of_checked {regs : List Reg} {s d t : State} {b n : Nat} (h : s.checked b n d = .next t)
    (hd : RegFrame regs s d) : RegFrame regs s t := by
  obtain ⟨-, rfl⟩ | ⟨-, rfl⟩ := State.checked_cases h
  · exact hd
  · exact fun _ _ => rfl

/-- Every instruction changes only the registers it is named a writer of (R22). -/
theorem exec_regFrame {i : Instr} {s t : State} (h : exec i s = .next t) : RegFrame i.writesV s t := by
  by_cases hw : StatePart.V ∈ i.mayChange
  · cases i with
    | ldImm x nn | addImm x nn | ldReg x y | or x y | and x y | xor x y | rnd x nn | ldVxDt x =>
      obtain rfl := Host.Outcome.next.inj h; exact s.regFrame_setReg x _
    | addReg x y | sub x y | shr x y | subn x y | shl x y =>
      obtain rfl := Host.Outcome.next.inj h; exact s.regFrame_setFlagThenReg x _ _
    | ldVxK x =>
      obtain ⟨v, rfl⟩ | rfl := execLdVxK_cases h
      · exact s.regFrame_setReg x v
      · exact fun _ _ => rfl
    | drw x y n => exact .of_checked h (State.regFrame_setReg _ vF _)
    | ldLoad x => exact .of_checked h (s.regFrame_loadRegs _ x)
    | _ => simp [Instr.mayChange] at hw
  · exact fun r _ => exec_frame h .V hw r

/-- Settles O55, from the frame of the parts and that of the registers. -/
theorem instructionsChangeOnlyTheirParts : Obligations.InstructionsChangeOnlyTheirParts :=
  fun _ _ _ h => ⟨exec_frame h, exec_regFrame h⟩

/-! ## The invariant -/

/-! ### At reset -/

/-- Settles O53: each clause at the values of the reset table. -/
theorem invariantHoldsAtReset : Obligations.InvariantHoldsAtReset where
  mem_wf := Memory.wf_nil
  I_lt := by decide
  pc_le := by decide
  stack_le := by decide
  record := by decide
  no_fault_pc := fun _ => rfl

/-- Settles O6: registers, stack, display and keys by position, memory from the laws of its reset content. -/
theorem resetHoldsTheTabledValues : Obligations.ResetHoldsTheTabledValues := by
  refine ⟨fun x => ?_, rfl, rfl, rfl, fun j => ?_, rfl, rfl, Display.at_clear, fun k => ?_, Memory.blank_of_lt,
    Memory.blank_of_le, rfl, rfl, rfl, rfl⟩
  · exact Vector.getElem_replicate x.isLt
  · exact Vector.getElem_replicate j.isLt
  · exact Vector.getElem_replicate k.isLt

/-! ### The shared operations keep it -/

/-- A store in range keeps the canonical form of memory and touches nothing else. -/
theorem State.Inv.storeBytes {s : State} (h : s.Inv) {a : Nat} {bs : List Byte} (ha : a + bs.length ≤ 4096) :
    (s.storeBytes a bs).Inv :=
  { h with mem_wf := Memory.wf_putBytes bs s.mem a ha h.mem_wf }

/-- A fault sets the record and the status together. -/
theorem State.Inv.raiseAt {s : State} (h : s.Inv) (p : Word) {c : FaultCode} (hc : c ≠ .none) : (s.raiseAt p c).Inv :=
  { h with
    record := ⟨fun _ => hc, fun _ => rfl⟩
    no_fault_pc := fun e => absurd e hc }

theorem State.Inv.closeLoad {s : State} (h : s.Inv) : s.closeLoad.Inv := { h with }

theorem State.Inv.withEvents {s : State} (h : s.Inv) (es : List Event) : (s.withEvents es).Inv := { h with }

/-- After a fetch that succeeds pc is at most 0x1000. -/
theorem State.advance_pc_toNat {s : State} (hp : s.pc.toNat ≤ 0xFFE) : s.advance.pc.toNat = s.pc.toNat + 2 := by
  rw [State.advance_pc, BitVec.toNat_add]
  exact Nat.mod_eq_of_lt (by simp; omega)

theorem State.Inv.advance {s : State} (h : s.Inv) (hp : s.pc.toNat ≤ 0xFFE) : s.advance.Inv :=
  { h with pc_le := by rw [State.advance_pc_toNat hp]; omega }

/-! ### Every instruction keeps it -/

theorem target_toNat (nnn : Addr) : (target nnn).toNat = nnn.toNat := by
  simp only [target, BitVec.toNat_setWidth]
  omega

/-- Annn, Fx1E and Fx29 are the writers of I, and each stays below 4096 (R24). -/
theorem exec_I_lt {i : Instr} {s t : State} (h : exec i s = .next t) (hI : s.I.toNat < 4096) : t.I.toNat < 4096 := by
  by_cases hw : StatePart.I ∈ i.mayChange
  · cases i with
    | ldI nnn =>
      obtain rfl := Host.Outcome.next.inj h
      exact (target_toNat nnn).trans_lt nnn.isLt
    | addI x =>
      obtain rfl := Host.Outcome.next.inj h
      show (indexSum s.I (s.reg x)).toNat < 4096
      simp only [indexSum, Config.memSize, BitVec.toNat_ofNat]
      omega
    | ldF x =>
      obtain rfl := Host.Outcome.next.inj h
      show (glyphAddress (s.reg x)).toNat < 4096
      have hlt : (s.reg x).toNat * 5 < 4096 := by omega
      exact (Nat.mod_le _ _).trans_lt hlt
    | _ => simp [Instr.mayChange] at hw
  · rwa [show t.I = s.I from exec_frame h .I hw]

/-- 2nnn is the writer of the stack, and pushes pc (R102). -/
theorem exec_stack_le {i : Instr} {s t : State} (h : exec i s = .next t) (hp : s.pc.toNat ≤ 0x1000)
    (hs : ∀ j : Fin 16, (s.stack[j]).toNat ≤ 0x1000) (j : Fin 16) : (t.stack[j]).toNat ≤ 0x1000 := by
  by_cases hw : StatePart.stack ∈ i.mayChange
  · cases i with
    | call nnn =>
      obtain ⟨k, -, rfl⟩ | rfl := execCall_cases h
      · show ((s.stack.set k s.pc)[j.val]).toNat ≤ 0x1000
        rw [Vector.getElem_set]
        split
        · exact hp
        · exact hs j
      · exact hs j
    | _ => simp [Instr.mayChange] at hw
  · rw [show t.stack = s.stack from exec_frame h .stack hw]
    exact hs j

theorem State.skipIf_pc_le {s : State} (hp : s.pc.toNat ≤ 0x1000) (c : Bool) : (s.skipIf c).pc.toNat ≤ 0x10FE := by
  rw [State.skipIf_pc]
  split
  · rw [BitVec.toNat_add]; simp; omega
  · omega

theorem State.key_skip_pc_le {s t : State} (hp : s.pc.toNat ≤ 0x1000)
    (h : (∃ c, t = s.skipIf c) ∨ t = s.raiseAt s.pcI .keyRange) : t.pc.toNat ≤ 0x10FE := by
  obtain ⟨c, rfl⟩ | rfl := h
  · exact State.skipIf_pc_le hp c
  · exact hp.trans (by decide)

/-- The writers of pc are the jumps, calls, returns, skips and the key wait; Bnnn goes furthest, to 0xFF + 0xFFF (R25,
R107). The lower bound on pc is for the key wait, which goes back by 2 (R193). -/
theorem exec_pc_le {i : Instr} {s t : State} (h : exec i s = .next t) (hlo : 2 ≤ s.pc.toNat)
    (hp : s.pc.toNat ≤ 0x1000) (hs : ∀ j : Fin 16, (s.stack[j]).toNat ≤ 0x1000) : t.pc.toNat ≤ 0x10FE := by
  have hsame : s.pc.toNat ≤ 0x10FE := by omega
  have htarget (nnn : Addr) : (target nnn).toNat ≤ 0x10FE := by rw [target_toNat]; omega
  by_cases hw : StatePart.pc ∈ i.mayChange
  · cases i with
    | ret =>
      obtain ⟨j, -, rfl⟩ | rfl := execRet_cases h
      · exact (hs j).trans (by decide)
      · exact hsame
    | call nnn =>
      obtain ⟨j, -, rfl⟩ | rfl := execCall_cases h
      · exact htarget nnn
      · exact hsame
    | skp x => exact State.key_skip_pc_le hp (execSkp_cases h)
    | sknp x => exact State.key_skip_pc_le hp (execSknp_cases h)
    | ldVxK x =>
      obtain ⟨v, rfl⟩ | rfl := execLdVxK_cases h
      · exact hsame
      · show (s.pc - 2).toNat ≤ 0x10FE
        rw [BitVec.toNat_sub_of_le (show 2 ≤ s.pc from hlo)]
        exact (Nat.sub_le _ _).trans hsame
    | jp nnn =>
      obtain rfl := Host.Outcome.next.inj h
      exact htarget nnn
    | jpV0 nnn =>
      obtain rfl := Host.Outcome.next.inj h
      show (s.indexedTarget nnn).toNat ≤ 0x10FE
      rw [State.indexedTarget, BitVec.toNat_add, target_toNat, BitVec.toNat_setWidth]
      omega
    | seImm _ _ | sneImm _ _ | seReg _ _ | sneReg _ _ =>
      obtain rfl := Host.Outcome.next.inj h
      exact State.skipIf_pc_le hp _
    | _ => simp [Instr.mayChange] at hw
  · rwa [show t.pc = s.pc from exec_frame h .pc hw]

/-- Every instruction keeps the invariant where pc is that of a fetch that succeeded: a fault and a store by their own
rules, the others since memory, status and record stay and I, pc and the stack keep their bounds. -/
theorem exec_inv {i : Instr} {s t : State} (h : exec i s = .next t) (hs : s.Inv) (hlo : 2 ≤ s.pc.toNat)
    (hp : s.pc.toNat ≤ 0x1000) : t.Inv := by
  cases exec_effect h with
  | fault c hc ht => exact ht ▸ hs.raiseAt s.pcI hc
  | store bs hbs ht => exact ht ▸ hs.storeBytes hbs
  | quiet hmem hstatus hcode hpc =>
    exact {
      mem_wf := hmem ▸ hs.mem_wf
      I_lt := exec_I_lt h hs.I_lt
      pc_le := exec_pc_le h hlo hp hs.stack_le
      stack_le := exec_stack_le h hp hs.stack_le
      record := by rw [hstatus, hcode]; exact hs.record
      no_fault_pc := by rw [hcode, hpc]; exact hs.no_fault_pc }

/-! ### Every event keeps it -/

theorem executeCycle_inv {s t : State} (h : executeCycle s = .next t) (hs : s.Inv) : t.Inv := by
  obtain ⟨-, he⟩ | ⟨-, -, he⟩ | ⟨-, hp, w, -, he⟩ := executeCycle_cases s
  · obtain rfl := Host.Outcome.next.inj (he.symm.trans h)
    exact hs
  · obtain rfl := Host.Outcome.next.inj (he.symm.trans h)
    exact hs.closeLoad.raiseAt s.pc (by decide)
  · have hpc : s.closeLoad.advance.pc.toNat = s.pc.toNat + 2 := State.advance_pc_toNat hp
    exact exec_inv (he.symm.trans h) (hs.closeLoad.advance hp) (by omega) (by omega)

theorem State.Inv.tick {s : State} (h : s.Inv) : s.tick.Inv := by
  unfold State.tick
  split
  · exact { h with }
  · exact h

theorem State.Inv.setKey {s : State} (h : s.Inv) (k : KeyIx) (b : Bool) : (s.setKey k b).Inv := by
  unfold State.setKey
  split
  · exact { h with }
  · exact h

theorem State.Inv.keyDown {s : State} (h : s.Inv) (k : KeyIx) : (s.keyDown k).Inv := by
  unfold State.keyDown
  split
  · exact h
  · exact h.setKey k true

/-- A stop is taken while Running, where no fault is recorded (R222). -/
theorem State.Inv.stopSignal {s : State} (h : s.Inv) : s.stopSignal.Inv := by
  unfold State.stopSignal
  split
  case isTrue hr =>
    have hcode : s.faultCode = .none := by
      by_contra hne
      exact absurd (hr.symm.trans (h.record.mpr hne)) (by decide)
    exact { h with record := by simp [hcode] }
  case isFalse => exact h

/-- Construction stores FONT and image over the reset state (R240). -/
theorem State.constructed_inv (font : Vector Byte 80) {image : List Byte} (hl : image.length ≤ Config.maxProgLen) :
    (State.constructed font image).Inv := by
  have hfont : (State.reset.storeBytes 0 font.toList).Inv := invariantHoldsAtReset.storeBytes (by simp)
  have himage : Config.progBase + image.length ≤ 4096 := by simp only [Config.progBase, Config.maxProgLen] at *; omega
  exact { hfont.storeBytes himage with }

theorem State.rst_inv (s : State) : s.rst.Inv :=
  { State.constructed_inv s.font (image := []) (Nat.zero_le _) with }

/-- The load port writes below 0xFFF (R241). -/
theorem State.load_inv {s t : State} {a : Addr} {d : Byte} (h : s.load a d = .next t) (hs : s.Inv) : t.Inv := by
  unfold State.load at h
  split at h
  · split at h
    · obtain rfl := Host.Outcome.next.inj h
      exact hs.storeBytes (Nat.succ_le_of_lt a.isLt)
    · contradiction
  · contradiction

theorem runEvent_inv {e : Event} {s t : State} (h : runEvent e s = .next t) (hs : s.Inv) : t.Inv := by
  cases e with
  | cpuStep => exact executeCycle_inv h hs
  | load a d => exact State.load_inv h hs
  | tick => obtain rfl := Host.Outcome.next.inj h; exact hs.tick
  | keyDown k => obtain rfl := Host.Outcome.next.inj h; exact hs.keyDown k
  | keyRelease k => obtain rfl := Host.Outcome.next.inj h; exact hs.setKey k false
  | stop => obtain rfl := Host.Outcome.next.inj h; exact hs.stopSignal
  | rst => obtain rfl := Host.Outcome.next.inj h; exact s.rst_inv
  | render => obtain rfl := Host.Outcome.next.inj h; exact hs

/-- Settles O54: a step is a cycle or a listed event, and each keeps the invariant. -/
theorem everyStepKeepsTheInvariant : Obligations.EveryStepKeepsTheInvariant := by
  intro s t hs h
  obtain ⟨-, he⟩ | ⟨e, rest, -, he⟩ := step_cases s
  · exact executeCycle_inv (he.symm.trans h) hs
  · exact runEvent_inv (he.symm.trans h) (hs.withEvents rest)

/-! ## What an instruction reads -/

/-- The same state but for its general registers. -/
abbrev State.withV (s : State) (V' : Vector Byte 16) : State := { s with V := V' }

/-- Two runs, from `s` to `t` and from `s'` to `t'`, end in states that differ in general registers only, each of which is
written alike or kept by both. -/
def Alike (s s' t t' : State) : Prop :=
  t' = { t with V := t'.V } ∧ ∀ r, t'.reg r = t.reg r ∨ (t.reg r = s.reg r ∧ t'.reg r = s'.reg r)

/-- Runs that keep the registers and do the same to the other parts. -/
theorem Alike.of_kept {s s' t t' : State} (h : t' = { t with V := t'.V }) (ht : t.V = s.V) (ht' : t'.V = s'.V) :
    Alike s s' t t' :=
  ⟨h, fun r => .inr ⟨State.reg_congr ht r, State.reg_congr ht' r⟩⟩

/-- Both runs write the same value to V[x] at their end. -/
theorem Alike.setReg {s s' t t' : State} (h : Alike s s' t t') (x : Reg) {v v' : Byte} (hv : v' = v) :
    Alike s s' (t.setReg x v) (t'.setReg x v') := by
  obtain ⟨hrest, hregs⟩ := h
  refine ⟨by rw [hrest]; rfl, fun r => ?_⟩
  simp only [State.reg_setReg]
  by_cases hx : x = r
  · simp [hx, hv]
  · simpa only [if_neg hx] using hregs r

/-- Both runs write the same flag and result at their end. -/
theorem Alike.setFlagThenReg {s s' t t' : State} (h : Alike s s' t t') (x : Reg) {f f' v v' : Byte} (hf : f' = f)
    (hv : v' = v) : Alike s s' (t.setFlagThenReg x f v) (t'.setFlagThenReg x f' v') :=
  (h.setReg vF hf).setReg x hv

/-- Loads of the same bytes are alike, as memory holds no register. -/
theorem Alike.loadRegs {s s' : State} (h : Alike s s' s s') (base n : Nat) :
    Alike s s' (s.loadRegs base n) (s'.loadRegs base n) := by
  have hmem : s'.mem = s.mem := by rw [h.1]
  induction n with
  | zero => exact h
  | succ n ih => exact ih.setReg (regIx n) (State.byte_congr hmem _)

theorem Alike.skipIf {s s' : State} (h : s' = { s with V := s'.V }) {c c' : Bool} (hc : c' = c) :
    Alike s s' (s.skipIf c) (s'.skipIf c') := by
  refine .of_kept ?_ (s.skipIf_V c) (s'.skipIf_V c')
  rw [h, hc]
  cases c <;> rfl

/-- Two results that are next states. -/
theorem Alike.of_next {s s' d d' t t' : State} (h : (.next d : Result) = .next t) (h' : (.next d' : Result) = .next t')
    (hd : Alike s s' d d') : Alike s s' t t' := by
  obtain rfl := Host.Outcome.next.inj h
  obtain rfl := Host.Outcome.next.inj h'
  exact hd

/-- Both runs take the same fault. -/
theorem Alike.of_raise {s s' t t' : State} {c : FaultCode} (h : s.raise c = .next t) (h' : s'.raise c = .next t')
    (hs : s' = { s with V := s'.V }) : Alike s s' t t' :=
  .of_next h h' (.of_kept (by rw [hs]; rfl) rfl rfl)

/-- A range check reads no register. -/
theorem Alike.of_checked {s s' d d' t t' : State} {b n : Nat} (h : s.checked b n d = .next t)
    (h' : s'.checked b n d' = .next t') (hs : s' = { s with V := s'.V }) (hd : Alike s s' d d') : Alike s s' t t' := by
  unfold State.checked at h h'
  split at h
  case isTrue hm => exact .of_next h ((if_pos hm).symm.trans h') hd
  case isFalse hm => exact .of_raise h ((if_neg hm).symm.trans h') hs

/-- The bytes of V[0] to V[x] are those of the registers read. -/
theorem State.regsUpTo_congr {s s' : State} {x : Reg} (h : ∀ r ≤ x, s'.reg r = s.reg r) :
    s'.regsUpTo x = s.regsUpTo x := by
  apply List.ext_getElem
  · simp only [State.length_regsUpTo]
  · intro j hj hj'
    rw [State.getElem_regsUpTo, State.getElem_regsUpTo]
    rw [State.length_regsUpTo] at hj
    exact h _ (Fin.mk_le_of_le_val (Nat.le_of_lt_succ hj))

/-- The sprite of a draw reads V[x], V[y] and no other register. -/
theorem State.sprite_congr {s s' : State} {x y : Reg} (n : Nibble) (hs : s' = { s with V := s'.V })
    (hx : s'.reg x = s.reg x) (hy : s'.reg y = s.reg y) : s'.sprite x y n = s.sprite x y n := by
  have hbytes (k : Nat) : ∀ a, s'.bytesAt a k = s.bytesAt a k := by
    induction k with
    | zero => exact fun _ => rfl
    | succ k ih => exact fun a => congrArg₂ List.cons (State.byte_congr (by rw [hs]) a) (ih (a + 1))
  have hbase : s'.base = s.base := by rw [hs]; rfl
  have hpix : s'.pix = s.pix := by rw [hs]
  simp only [State.sprite, hx, hy, hbytes, hbase, hpix]

/-- The instructions that read no register. -/
theorem exec_alike_of_reads_none {i : Instr} {s t t' : State} {V' : Vector Byte 16} (hr : i.readsV = [])
    (h : exec i s = .next t) (h' : exec i (s.withV V') = .next t') : Alike s (s.withV V') t t' := by
  have hstart : Alike s (s.withV V') s (s.withV V') := .of_kept rfl rfl rfl
  cases i with
  | ret =>
    obtain he | ⟨j, hj⟩ := s.empty_or_live
    · have he' : (s.withV V').SP.val = 0 := he
      exact .of_raise ((execRet_of_empty he).symm.trans h) ((execRet_of_empty he').symm.trans h') rfl
    · have hj' : (s.withV V').SP.val = j.val + 1 := hj
      exact .of_next ((execRet_of_live hj).symm.trans h) ((execRet_of_live hj').symm.trans h') (.of_kept rfl rfl rfl)
  | call nnn =>
    obtain he | ⟨j, hj⟩ := s.full_or_room
    · have he' : (s.withV V').SP.val = 16 := he
      exact .of_raise ((execCall_of_full nnn he).symm.trans h) ((execCall_of_full nnn he').symm.trans h') rfl
    · have hj' : (s.withV V').SP.val = j.val := hj
      exact .of_next ((execCall_of_room nnn hj).symm.trans h) ((execCall_of_room nnn hj').symm.trans h')
        (.of_kept rfl rfl rfl)
  | ldVxK x =>
    cases hk : firstKey s.key with
    | some k =>
      have hk' : firstKey (s.withV V').key = some k := hk
      exact .of_next ((execLdVxK_of_key x hk).symm.trans h) ((execLdVxK_of_key x hk').symm.trans h')
        (hstart.setReg x rfl)
    | none =>
      have hk' : firstKey (s.withV V').key = none := hk
      exact .of_next ((execLdVxK_of_none x hk).symm.trans h) ((execLdVxK_of_none x hk').symm.trans h')
        (.of_kept rfl rfl rfl)
  | ldLoad x => exact .of_checked h h' rfl (hstart.loadRegs s.base (x.val + 1))
  | ldImm x nn | ldVxDt x => exact .of_next h h' (hstart.setReg x rfl)
  | rnd x nn =>
    have hdrawn : Alike s (s.withV V') { s with draws := s.draws + 1 } { s.withV V' with draws := s.draws + 1 } :=
      .of_kept rfl rfl rfl
    exact .of_next h h' (hdrawn.setReg x rfl)
  | cls | sys nnn | jp nnn | ldI nnn | unmatched w => exact .of_next h h' (.of_kept rfl rfl rfl)
  | ldStore x => exact absurd (List.filter_eq_nil_iff.mp hr x (List.mem_finRange x)) (by simp)
  | _ => simp [Instr.readsV] at hr

/-- Every instruction depends on no register but those it reads (R22). -/
theorem exec_alike {i : Instr} {s t t' : State} {V' : Vector Byte 16} (hr : ∀ r ∈ i.readsV, (s.withV V').reg r = s.reg r)
    (h : exec i s = .next t) (h' : exec i (s.withV V') = .next t') : Alike s (s.withV V') t t' := by
  have hstart : Alike s (s.withV V') s (s.withV V') := .of_kept rfl rfl rfl
  cases i with
  | addImm x nn =>
    have hx := hr x (by simp [Instr.readsV])
    exact .of_next h h' (hstart.setReg x (by rw [hx]))
  | ldReg x y =>
    have hy := hr y (by simp [Instr.readsV])
    exact .of_next h h' (hstart.setReg x hy)
  | or x y | and x y | xor x y =>
    have hx := hr x (by simp [Instr.readsV])
    have hy := hr y (by simp [Instr.readsV])
    exact .of_next h h' (hstart.setReg x (by rw [hx, hy]))
  | addReg x y | sub x y | subn x y =>
    have hx := hr x (by simp [Instr.readsV])
    have hy := hr y (by simp [Instr.readsV])
    exact .of_next h h' (hstart.setFlagThenReg x (by rw [hx, hy]) (by rw [hx, hy]))
  | shr x y | shl x y =>
    have hx := hr x (by simp [Instr.readsV])
    exact .of_next h h' (hstart.setFlagThenReg x (by rw [hx]) (by rw [hx]))
  | seImm x nn | sneImm x nn =>
    have hx := hr x (by simp [Instr.readsV])
    exact .of_next h h' (.skipIf rfl (by rw [hx]))
  | seReg x y | sneReg x y =>
    have hx := hr x (by simp [Instr.readsV])
    have hy := hr y (by simp [Instr.readsV])
    exact .of_next h h' (.skipIf rfl (by rw [hx, hy]))
  | skp x =>
    have hx := hr x (by simp [Instr.readsV])
    cases hk : keyOf (s.reg x) with
    | some k =>
      exact .of_next ((execSkp_of_key hk).symm.trans h) ((execSkp_of_key (hx.symm ▸ hk)).symm.trans h')
        (.skipIf rfl rfl)
    | none =>
      exact .of_raise ((execSkp_of_range hk).symm.trans h) ((execSkp_of_range (hx.symm ▸ hk)).symm.trans h') rfl
  | sknp x =>
    have hx := hr x (by simp [Instr.readsV])
    cases hk : keyOf (s.reg x) with
    | some k =>
      exact .of_next ((execSknp_of_key hk).symm.trans h) ((execSknp_of_key (hx.symm ▸ hk)).symm.trans h')
        (.skipIf rfl rfl)
    | none =>
      exact .of_raise ((execSknp_of_range hk).symm.trans h) ((execSknp_of_range (hx.symm ▸ hk)).symm.trans h') rfl
  | ldDt x | ldSt x | addI x | ldF x =>
    have hx := hr x (by simp [Instr.readsV])
    exact .of_next h h' (.of_kept (by rw [hx]) rfl rfl)
  | jpV0 nnn =>
    have h0 : (s.withV V').indexedTarget nnn = s.indexedTarget nnn := by
      rw [State.indexedTarget, hr 0 (by simp [Instr.readsV]), State.indexedTarget]
    exact .of_next h h' (.of_kept (by rw [h0]) rfl rfl)
  | ldB x =>
    have hx := hr x (by simp [Instr.readsV])
    exact .of_checked h h' rfl (.of_kept (by rw [hx]; rfl) rfl rfl)
  | ldStore x =>
    have hregs : (s.withV V').regsUpTo x = s.regsUpTo x :=
      State.regsUpTo_congr fun r hle => hr r (by simpa [Instr.readsV] using hle)
    exact .of_checked h h' rfl (.of_kept (by rw [hregs]; rfl) rfl rfl)
  | drw x y n =>
    have hsprite : (s.withV V').sprite x y n = s.sprite x y n :=
      State.sprite_congr n rfl (hr x (by simp [Instr.readsV])) (hr y (by simp [Instr.readsV]))
    have hdrawn : Alike s (s.withV V') { s with pix := (s.sprite x y n).1 }
        { s.withV V' with pix := ((s.withV V').sprite x y n).1 } := .of_kept (by rw [hsprite]) rfl rfl
    exact .of_checked h h' rfl (hdrawn.setReg vF (by rw [hsprite]))
  | _ => exact exec_alike_of_reads_none rfl h h'

/-- Settles O56: the second state is the first with other registers, and every instruction is alike on the two. -/
theorem instructionsReadOnlyTheirRegisters : Obligations.InstructionsReadOnlyTheirRegisters := by
  intro i s s' t t' hs hr h h'
  rw [hs] at hr h' ⊢
  exact exec_alike hr h h'

end Sys2Proof.Machine

/-! PROOFS. Memory: a checked transfer inside and outside memory, the stored bytes of Fx55 as a later fetch reads them, the only
instructions that change a byte, and the instruction a CPU step runs. -/

namespace Sys2Proof.Machine

/-! ## Checked transfers -/

/-- A transfer whose whole range is in memory happens (R51). -/
theorem State.checked_of_le (s d : State) {a n : Nat} (h : a + n ≤ 4096) : s.checked a n d = .next d := by
  rw [State.checked, if_pos ((inMemory_iff a n).mpr (.inr h))]

/-- A transfer of at least one byte whose range leaves memory raises MemRange (R51; the spec's D3). -/
theorem State.checked_of_lt (s d : State) {a n : Nat} (hn : 0 < n) (h : 4096 < a + n) :
    s.checked a n d = s.raise .memRange := by
  have hout : ¬ inMemory a n = true := fun hm => by
    have := (inMemory_iff a n).mp hm
    omega
  rw [State.checked, if_neg hout]

/-- An instruction whose meaning is a checked transfer out of memory takes MemRange. -/
theorem takesFault_of_checked {i : Instr} {s d : State} {a n : Nat} (h : exec i s = s.checked a n d) (hn : 0 < n)
    (hout : 4096 < a + n) : TakesFault i s .memRange :=
  takesFault_of_raise (h.trans (s.checked_of_lt d hn hout))

/-- Settles O35: the range of each transfer leaves memory, so its check fails before anything is written. -/
theorem transfersPastMemoryTakeMemRange : Obligations.TransfersPastMemoryTakeMemRange := by
  intro x y n s
  have hbase : s.base = s.I.toNat := rfl
  refine ⟨fun hI => ?ldB, fun hI => ⟨?ldStore, ?ldLoad⟩, fun hn hI => ?drw⟩
  case ldB => exact takesFault_of_checked rfl (by decide) (by omega)
  case ldStore => exact takesFault_of_checked rfl x.val.succ_pos (by omega)
  case ldLoad => exact takesFault_of_checked rfl x.val.succ_pos (by omega)
  case drw => exact takesFault_of_checked rfl hn (by omega)

/-! ## The bytes a store changes -/

/-- A byte that a checked store changes lies in its range, and the range lies in memory. -/
theorem State.range_of_checked_store {s t : State} {a n b : Nat} {bs : List Byte}
    (h : s.checked a n (s.storeBytes a bs) = .next t) (hlen : bs.length = n) (hne : t.byte b ≠ s.byte b) :
    a ≤ b ∧ b < a + n ∧ a + n ≤ 4096 := by
  obtain ⟨hm, rfl⟩ | ⟨-, rfl⟩ := State.checked_cases h
  · have hfits : n = 0 ∨ a + n ≤ 4096 := (inMemory_iff a n).mp hm
    have hin : a ≤ b ∧ b < a + bs.length :=
      not_not.mp fun hout => hne (s.byte_storeBytes_of_outside a bs b hout)
    omega
  · exact absurd (s.byte_congr (s.raiseAt_mem _ _) b) hne

/-- Only Fx33 and Fx55 write memory (R50). -/
theorem Instr.mem_mem_mayChange {i : Instr} (h : StatePart.mem ∈ i.mayChange) :
    (∃ x, i = .ldB x) ∨ ∃ x, i = .ldStore x := by
  cases i with
  | ldB x => exact .inl ⟨x, rfl⟩
  | ldStore x => exact .inr ⟨x, rfl⟩
  | _ => simp [Instr.mayChange] at h

/-- Settles O58: the frame leaves the two stores, and a store changes bytes of its checked range only. -/
theorem memoryChangesOnlyUnderStores : Obligations.MemoryChangesOnlyUnderStores := by
  intro i s t a h hne
  have hmem : StatePart.mem ∈ i.mayChange := not_not.mp fun hno => hne (exec_frame h .mem hno a)
  obtain ⟨x, rfl⟩ | ⟨x, rfl⟩ := Instr.mem_mem_mayChange hmem
  · obtain ⟨hlo, hhi, hfits⟩ := State.range_of_checked_store h rfl hne
    exact .inl ⟨x, rfl, hlo, by omega, by omega⟩
  · obtain ⟨hlo, hhi, hfits⟩ := State.range_of_checked_store h (s.length_regsUpTo x) hne
    exact .inr ⟨x, rfl, hlo, by omega, by omega⟩

/-! ## Fetching what was stored -/

/-- Fx55 within memory is the store of V[0] to V[x] (R154). -/
theorem execLdStore_of_le {x : Reg} {s : State} (h : s.I.toNat + x.val ≤ 0xFFF) :
    execLdStore x s = .next (s.storeBytes s.base (s.regsUpTo x)) :=
  s.checked_of_le _ (by rw [State.base]; omega)

/-- Where Fx55 has stored its registers, V[r] stands at I + r (R154). -/
theorem State.byte_storeBytes_regsUpTo (s : State) (a : Nat) {x r : Reg} (hr : r ≤ x) :
    (s.storeBytes a (s.regsUpTo x)).byte (a + r.val) = s.reg r := by
  have hlt : r.val < (s.regsUpTo x).length := by
    rw [State.length_regsUpTo]
    exact Nat.lt_succ_of_le hr
  rw [State.byte_storeBytes_of_inside _ _ _ _ hlt, State.getElem_regsUpTo]

/-- The word of two bytes, as a number (R52). -/
theorem wordOf_toNat (hi lo : Byte) : (wordOf hi lo).toNat = hi.toNat * 256 + lo.toNat := by
  rw [wordOf, BitVec.toNat_ofNat]
  omega

/-- Settles O37: the fetch reads the bytes at I + j and I + j + 1, which are V[j] and V[k]. -/
theorem fetchSeesStoredWord : Obligations.FetchSeesStoredWord := by
  intro x s t u j k hI hk hkj h hmem hpc
  obtain rfl := Host.Outcome.next.inj ((execLdStore_of_le hI).symm.trans h)
  have hkx : k.val ≤ x.val := hk
  have hj : j ≤ x := Fin.le_def.mpr (by omega)
  have hbyte (r : Reg) (hr : r ≤ x) : u.byte (s.I.toNat + r.val) = s.reg r :=
    (State.byte_congr hmem _).trans (s.byte_storeBytes_regsUpTo s.base hr)
  have hhi : u.byte u.pc.toNat = s.reg j := by rw [hpc, hbyte j hj]
  have hlo : u.byte (u.pc.toNat + 1) = s.reg k := by rw [hpc, Nat.add_assoc, ← hkj, hbyte k hk]
  exact ⟨_, u.fetch_of_le (by omega), by rw [wordOf_toNat, hhi, hlo]⟩

/-! ## The instruction a CPU step runs -/

/-- A cycle of a Running core with a whole word at pc runs the instruction of its two bytes (R52, R91). -/
theorem executeCycle_of_le {s : State} (hr : s.status = .running) (hp : s.pc.toNat ≤ 0xFFE) :
    executeCycle s = exec (decode (wordOf (s.byte s.pc.toNat) (s.byte (s.pc.toNat + 1)))) s.closeLoad.advance :=
  executeCycle_of_fetch hr (s.fetch_of_le hp)

/-- Settles O8: with or without a listed CPU step, the step is the cycle on the state with that event taken off. -/
theorem stepRunsTheDecodedInstruction : Obligations.StepRunsTheDecodedInstruction := by
  intro s i rest hr hp _ hi
  subst hi
  constructor
  · intro he
    exact (step_of_no_events he).trans (executeCycle_of_le hr hp)
  · intro he
    have hcycle := executeCycle_of_le (s := s.withEvents rest) hr hp
    exact (step_of_event he).trans hcycle

end Sys2Proof.Machine

/-! PROOFS. Encoding: a word put together again from its fields, the unmatched words class by class, the decoder and the encoder
as inverses of each other, and the rows of the opcode map. -/

namespace Sys2Proof

/-! ## A word from its fields -/

theorem fieldC_lt (w : Word) : fieldC w < 16 := by
  have := w.isLt
  unfold fieldC; omega

theorem asmNNN_fields {w : Word} {c : Nat} (hc : fieldC w = c) : asmNNN c (fieldNNN w) = w := by
  have hlt := hc ▸ fieldC_lt w
  apply BitVec.eq_of_toNat_eq
  rw [toNat_asmNNN c _ hlt, toNat_fieldNNN]
  unfold fieldC at hc; omega

theorem asmXNN_fields {w : Word} {c n : Nat} (hc : fieldC w = c) (hn : subNN w = n) : asmXNN c (fieldX w) n = w := by
  have hlt := hc ▸ fieldC_lt w
  unfold fieldC at hc; unfold subNN at hn
  apply BitVec.eq_of_toNat_eq
  rw [toNat_asmXNN c _ n hlt (by omega), toNat_fieldX]
  omega

theorem asmXYN_fields {w : Word} {c n : Nat} (hc : fieldC w = c) (hn : subN w = n) :
    asmXYN c (fieldX w) (fieldY w) n = w := by
  have hlt := hc ▸ fieldC_lt w
  unfold fieldC at hc; unfold subN at hn
  apply BitVec.eq_of_toNat_eq
  rw [toNat_asmXYN c _ _ n hlt (by omega), toNat_fieldX, toNat_fieldY]
  omega

/-! ## The table of R76, class by class -/

theorem isUnmatched_of_class5 {w : Word} (hc : fieldC w = 0x5) : isUnmatched w = (subN w != 0) := by
  unfold fieldC at hc; simp only [isUnmatched, hc, subN]

theorem isUnmatched_of_class8 {w : Word} (hc : fieldC w = 0x8) :
    isUnmatched w = [0x8, 0x9, 0xA, 0xB, 0xC, 0xD, 0xF].contains (subN w) := by
  unfold fieldC at hc; simp only [isUnmatched, hc, subN]

theorem isUnmatched_of_class9 {w : Word} (hc : fieldC w = 0x9) : isUnmatched w = (subN w != 0) := by
  unfold fieldC at hc; simp only [isUnmatched, hc, subN]

theorem isUnmatched_of_classE {w : Word} (hc : fieldC w = 0xE) :
    isUnmatched w = !([0x9E, 0xA1].contains (subNN w)) := by
  unfold fieldC at hc; simp only [isUnmatched, hc, subNN]

theorem isUnmatched_of_classF {w : Word} (hc : fieldC w = 0xF) :
    isUnmatched w = !([0x07, 0x0A, 0x15, 0x18, 0x1E, 0x29, 0x33, 0x55, 0x65].contains (subNN w)) := by
  unfold fieldC at hc; simp only [isUnmatched, hc, subNN]

/-- Only these five classes have unmatched words. -/
theorem fieldC_of_isUnmatched {w : Word} (h : isUnmatched w = true) :
    fieldC w = 0x5 ∨ fieldC w = 0x8 ∨ fieldC w = 0x9 ∨ fieldC w = 0xE ∨ fieldC w = 0xF := by
  unfold isUnmatched at h
  unfold fieldC
  split at h <;> simp_all

/-! ## Decode after encode -/

/-- A word of the table of R76 decodes to the catch-all. -/
theorem decode_of_isUnmatched {w : Word} (h : isUnmatched w = true) : decode w = .unmatched w := by
  obtain hc | hc | hc | hc | hc := fieldC_of_isUnmatched h
  · have hn : subN w ≠ 0 := by simpa [isUnmatched_of_class5 hc] using h
    simp [decode, hc, hn]
  · rw [isUnmatched_of_class8 hc] at h
    simp only [decode, hc, decode8]
    split <;> simp_all
  · have hn : subN w ≠ 0 := by simpa [isUnmatched_of_class9 hc] using h
    simp [decode, hc, hn]
  · rw [isUnmatched_of_classE hc] at h
    simp only [decode, hc, decodeE]
    split <;> simp_all
  · rw [isUnmatched_of_classF hc] at h
    simp only [decode, hc, decodeF]
    split <;> simp_all

/-- The words of CLS and RET are the words of class 0 that are not read as SYS (R75). -/
theorem decode_encode_sys {nnn : Addr} (h : (Instr.sys nnn).wf = true) : decode (encode (.sys nnn)) = .sys nnn := by
  obtain ⟨hcls, hret⟩ : nnn ≠ 0x0E0 ∧ nnn ≠ 0x0EE := by simpa [Instr.wf] using h
  have hnnn : fieldNNN (asmNNN 0x0 nnn) = nnn := fieldNNN_asmNNN 0x0 nnn (by decide)
  have hne0 : asmNNN 0x0 nnn ≠ 0x00E0#16 := fun he => hcls (by rw [← hnnn, he]; rfl)
  have hneE : asmNNN 0x0 nnn ≠ 0x00EE#16 := fun he => hret (by rw [← hnnn, he]; rfl)
  simp [encode, decode, fieldC_asmNNN, decode0, hne0, hneE, hnnn]

/-- Settles O1: class and sub-opcode of an encoded word select the instruction's own branch of the decoder, which reads each
operand back from the field it was put in. -/
theorem decodeOfEncodeIsTheInstruction : Obligations.DecodeOfEncodeIsTheInstruction := by
  intro i hwf
  cases i with
  | cls | ret => rfl
  | sys nnn => exact decode_encode_sys hwf
  | unmatched w => exact decode_of_isUnmatched hwf
  | jp nnn | call nnn | ldI nnn | jpV0 nnn => simp [encode, decode, fieldC_asmNNN, fieldNNN_asmNNN]
  | seImm x nn | sneImm x nn | ldImm x nn | addImm x nn | rnd x nn =>
    simp [encode, decode, fieldC_asmXNN, fieldX_asmXNN, fieldNN_asmXNN, nn.isLt]
  | drw x y n => simp [encode, decode, fieldC_asmXYN, fieldX_asmXYN, fieldY_asmXYN, fieldN_asmXYN, n.isLt]
  | seReg x y | sneReg x y => simp [encode, decode, fieldC_asmXYN, fieldX_asmXYN, fieldY_asmXYN, subN_asmXYN]
  | ldReg x y | or x y | and x y | xor x y | addReg x y | sub x y | shr x y | subn x y | shl x y =>
    simp [encode, decode, decode8, fieldC_asmXYN, fieldX_asmXYN, fieldY_asmXYN, subN_asmXYN]
  | skp x | sknp x => simp [encode, decode, decodeE, fieldC_asmXNN, fieldX_asmXNN, subNN_asmXNN]
  | ldVxDt x | ldVxK x | ldDt x | ldSt x | addI x | ldF x | ldB x | ldStore x | ldLoad x =>
    simp [encode, decode, decodeF, fieldC_asmXNN, fieldX_asmXNN, subNN_asmXNN]

/-! ## Encode after decode -/

/-- `i` is well-formed and `w` is its word. -/
def Instr.HasWord (i : Instr) (w : Word) : Prop := i.wf = true ∧ encode i = w

theorem Instr.HasWord.unmatched {w : Word} (h : isUnmatched w = true) : (Instr.unmatched w).HasWord w := ⟨h, rfl⟩

theorem decode0_hasWord {w : Word} (hc : fieldC w = 0x0) : (decode0 w).HasWord w := by
  have hasm : asmNNN 0x0 (fieldNNN w) = w := asmNNN_fields hc
  unfold decode0
  split
  case isTrue hcls => exact ⟨rfl, hcls.symm⟩
  case isFalse hcls =>
    split
    case isTrue hret => exact ⟨rfl, hret.symm⟩
    case isFalse hret =>
      have hne0 : fieldNNN w ≠ 0x0E0 := fun he => hcls (by rw [← hasm, he]; rfl)
      have hneE : fieldNNN w ≠ 0x0EE := fun he => hret (by rw [← hasm, he]; rfl)
      exact ⟨by simpa [Instr.wf] using ⟨hne0, hneE⟩, hasm⟩

theorem decode8_hasWord {w : Word} (hc : fieldC w = 0x8) : (decode8 w).HasWord w := by
  unfold decode8
  split
  case h_10 =>
    refine .unmatched ?_
    have hlt : subN w < 16 := Nat.mod_lt _ (by decide)
    rw [isUnmatched_of_class8 hc]
    simp only [imp_false, List.contains_iff_mem, List.mem_cons, List.not_mem_nil] at *
    omega
  all_goals exact ⟨rfl, asmXYN_fields hc ‹_›⟩

theorem decodeE_hasWord {w : Word} (hc : fieldC w = 0xE) : (decodeE w).HasWord w := by
  unfold decodeE
  split
  case h_3 => exact .unmatched (by simp_all [isUnmatched_of_classE hc])
  all_goals exact ⟨rfl, asmXNN_fields hc ‹_›⟩

theorem decodeF_hasWord {w : Word} (hc : fieldC w = 0xF) : (decodeF w).HasWord w := by
  unfold decodeF
  split
  case h_10 => exact .unmatched (by simp_all [isUnmatched_of_classF hc])
  all_goals exact ⟨rfl, asmXNN_fields hc ‹_›⟩

theorem decode_hasWord (w : Word) : (decode w).HasWord w := by
  unfold decode
  split
  case h_1 hc => exact decode0_hasWord hc
  case h_2 hc | h_3 hc | h_11 hc | h_12 hc => exact ⟨rfl, asmNNN_fields hc⟩
  case h_4 hc | h_5 hc | h_7 hc | h_8 hc | h_13 hc => exact ⟨rfl, asmXNN_fields hc (toNat_fieldNN w).symm⟩
  case h_6 hc =>
    split
    case isTrue hn => exact ⟨rfl, asmXYN_fields hc hn⟩
    case isFalse hn => exact .unmatched (by simpa [isUnmatched_of_class5 hc] using hn)
  case h_9 hc => exact decode8_hasWord hc
  case h_10 hc =>
    split
    case isTrue hn => exact ⟨rfl, asmXYN_fields hc hn⟩
    case isFalse hn => exact .unmatched (by simpa [isUnmatched_of_class9 hc] using hn)
  case h_14 hc => exact ⟨rfl, asmXYN_fields hc (toNat_fieldN w).symm⟩
  case h_15 hc => exact decodeE_hasWord hc
  case h_16 =>
    have hlt := fieldC_lt w
    simp only [imp_false] at *
    exact decodeF_hasWord (by omega)

/-- Settles O2: every branch of the decoder gives an instruction whose word is `w`, and a catch-all is well-formed only for a word
of R76's table. -/
theorem everyWordIsTheWordOfItsInstruction : Obligations.EveryWordIsTheWordOfItsInstruction := by
  intro w
  obtain ⟨hwf, henc⟩ := decode_hasWord w
  refine ⟨hwf, henc, fun h => ?_, decode_of_isUnmatched⟩
  rw [h] at hwf
  exact hwf

/-! ## The rows of the opcode map -/

namespace OpcodeRow

/-- The class stands beside the whole word, so that a word of another class leaves the row by its class. -/
@[simp] theorem hits_word (w m : Word) (f : Word → Instr) :
    hits (0xFFFF#16, m, f) w = (decide (fieldC w = m.toNat / 4096) && decide (w = m)) := by
  rw [hits, and_mask_FFFF, beq_eq_decide, Bool.eq_iff_iff]
  simp +contextual [fieldC]

@[simp] theorem hits_class (w m : Word) (f : Word → Instr) (hm : m.toNat % 4096 = 0) :
    hits (0xF000#16, m, f) w = decide (fieldC w = m.toNat / 4096) :=
  and_F000_beq w m _ (by omega)

@[simp] theorem hits_class_subN (w m : Word) (f : Word → Instr) (hm : m.toNat % 4096 < 16) :
    hits (0xF00F#16, m, f) w = (decide (fieldC w = m.toNat / 4096) && decide (subN w = m.toNat % 4096)) :=
  and_F00F_beq w m _ _ (by omega) hm

@[simp] theorem hits_class_subNN (w m : Word) (f : Word → Instr) (hm : m.toNat % 4096 < 256) :
    hits (0xF0FF#16, m, f) w = (decide (fieldC w = m.toNat / 4096) && decide (subNN w = m.toNat % 4096)) :=
  and_F0FF_beq w m _ _ (by omega) hm

@[simp] theorem hits_all (w : Word) (f : Word → Instr) : hits (0x0000#16, 0x0000#16, f) w = true := by
  rw [hits, BitVec.and_zero, beq_self_eq_true]

/-- Two rows that share a word agree on the bits that both of them fix. -/
theorem match_and_mask_comm {r r' : OpcodeRow} {w : Word} (h : r.hits w = true) (h' : r'.hits w = true) :
    r.2.1 &&& r'.1 = r'.2.1 &&& r.1 := by
  rw [hits, beq_iff_eq] at h h'
  rw [← h, ← h', BitVec.and_assoc, BitVec.and_assoc, BitVec.and_comm r.1]

end OpcodeRow

/-- The row pairs of R74 that agree on the bits that both fix. -/
theorem opcodeMap_compatible_rows : ∀ i j : Fin opcodeMap.length, i < j →
    (opcodeMap[i]).2.1 &&& (opcodeMap[j]).1 = (opcodeMap[j]).2.1 &&& (opcodeMap[i]).1 →
    j.val = 35 ∨ (j.val = 2 ∧ i.val < 2) := by decide

/-- Settles O4: rows that share a word agree on their common fixed bits, and the finite table has no other such pairs. -/
theorem opcodeRowsOverlapOnlyAsListed : Obligations.OpcodeRowsOverlapOnlyAsListed :=
  fun i j _ hij hi hj => opcodeMap_compatible_rows i j hij (OpcodeRow.match_and_mask_comm hi hj)

/-! ## Dispatch and first match -/

/-- Class 0: CLS and RET stand before SYS (R75). -/
theorem firstMatch_opcodeMap_class0 {w : Word} (hc : fieldC w = 0x0) :
    firstMatch opcodeMap w = some (decode0 w) := by
  unfold decode0
  split
  case isTrue hcls => rw [hcls]; rfl
  case isFalse hcls =>
    split
    case isTrue hret => rw [hret]; rfl
    case isFalse hret => simp [opcodeMap, opcodeMapLow, firstMatch, hc, hcls, hret]

theorem firstMatch_opcodeMap_class8 {w : Word} (hc : fieldC w = 0x8) :
    firstMatch opcodeMap w = some (decode8 w) := by
  unfold decode8
  split <;> simp_all [opcodeMap, opcodeMapLow, opcodeMapMid, opcodeMapHigh, firstMatch]

theorem firstMatch_opcodeMap_classE {w : Word} (hc : fieldC w = 0xE) :
    firstMatch opcodeMap w = some (decodeE w) := by
  unfold decodeE
  split <;> simp_all [opcodeMap, opcodeMapLow, opcodeMapMid, opcodeMapHigh, firstMatch]

theorem firstMatch_opcodeMap_classF {w : Word} (hc : fieldC w = 0xF) :
    firstMatch opcodeMap w = some (decodeF w) := by
  unfold decodeF
  split <;> simp_all [opcodeMap, opcodeMapLow, opcodeMapMid, opcodeMapHigh, firstMatch]

/-- Settles O3: in each branch of the decoder, class and sub-opcode say of every row before the instruction's own that the word
does not lie in it. -/
theorem decoderAgreesWithOpcodeMap : Obligations.DecoderAgreesWithOpcodeMap := by
  intro w
  unfold decode
  split
  case h_1 hc => exact firstMatch_opcodeMap_class0 hc
  case h_6 hc | h_10 hc =>
    split <;> simp [opcodeMap, opcodeMapLow, opcodeMapMid, opcodeMapHigh, firstMatch, *]
  case h_9 hc => exact firstMatch_opcodeMap_class8 hc
  case h_15 hc => exact firstMatch_opcodeMap_classE hc
  case h_16 =>
    have hlt := fieldC_lt w
    simp only [imp_false] at *
    exact firstMatch_opcodeMap_classF (by omega)
  case h_2 hc | h_3 hc | h_4 hc | h_5 hc | h_7 hc | h_8 hc => simp [opcodeMap, opcodeMapLow, firstMatch, hc]
  case h_11 hc | h_12 hc | h_13 hc | h_14 hc => simp [opcodeMap, opcodeMapLow, opcodeMapMid, firstMatch, hc]

/-! ## The words of a row -/

/-- The first match is the row that the word lies in where it lies in no row before that one. -/
theorem firstMatch_eq_getElem {w : Word} : ∀ {l : List OpcodeRow} {k : Nat} (hk : k < l.length), (l[k]).hits w = true →
    (∀ j (hj : j < k), (l[j]).hits w = false) → firstMatch l w = some ((l[k]).2.2 w)
  | [], _, hk, _, _ => absurd hk (Nat.not_lt_zero _)
  | _ :: _, 0, _, hhit, _ => if_pos hhit
  | r :: rest, k + 1, hk, hhit, hbefore => by
    have hr : r.hits w = false := hbefore 0 k.succ_pos
    have ih := firstMatch_eq_getElem (Nat.lt_of_succ_lt_succ hk) hhit
      fun j hj => hbefore (j + 1) (Nat.succ_lt_succ hj)
    simp only [firstMatch, hr, Bool.false_eq_true, if_false, List.getElem_cons_succ]
    exact ih

/-- Every word of a row other than SYS and the catch-all decodes to the instruction of that row (R74). -/
theorem rowDecodes_opcodeMap (k : Nat) (hlt : k < opcodeMap.length) (hk : k ≠ 2 ∧ k ≠ 35) :
    Machine.RowDecodes (opcodeMap[k]).1 (opcodeMap[k]).2.1 (opcodeMap[k]).2.2 := by
  intro w hw
  have hhit : (opcodeMap[k]).hits w = true := beq_iff_eq.mpr hw
  have hbefore (j : Nat) (hj : j < k) : (opcodeMap[j]).hits w = false := by
    by_contra hne
    have hj' : (opcodeMap[j]).hits w = true := Bool.eq_true_of_not_eq_false hne
    obtain h35 | ⟨h2, -⟩ := opcodeRowsOverlapOnlyAsListed ⟨j, hj.trans hlt⟩ ⟨k, hlt⟩ w hj hj' hhit
    · exact hk.2 h35
    · exact hk.1 h2
  exact Option.some.inj ((decoderAgreesWithOpcodeMap w).symm.trans (firstMatch_eq_getElem hlt hhit hbefore))

/-- Settles O5: each word lies in the row named, but for the words of SYS and of the catch-all, whose branch is evaluated. -/
theorem sampleWordsDecode : Obligations.SampleWordsDecode :=
  ⟨rowDecodes_opcodeMap 0 (by decide) (by decide) _ rfl, rowDecodes_opcodeMap 1 (by decide) (by decide) _ rfl, rfl,
    rowDecodes_opcodeMap 4 (by decide) (by decide) _ rfl, rowDecodes_opcodeMap 5 (by decide) (by decide) _ rfl,
    rowDecodes_opcodeMap 7 (by decide) (by decide) _ rfl, rowDecodes_opcodeMap 15 (by decide) (by decide) _ rfl,
    rowDecodes_opcodeMap 23 (by decide) (by decide) _ rfl, rowDecodes_opcodeMap 25 (by decide) (by decide) _ rfl,
    rowDecodes_opcodeMap 32 (by decide) (by decide) _ rfl, rfl⟩

end Sys2Proof

/-! PROOFS. The execute cycle: the word a placed fetch reads, the fetch beyond memory, the moves while not Running, and which
instructions, events and steps answer a next state. -/

namespace Sys2Proof.Machine

/-! ## The no-ops -/

/-- A word of class 0 other than those of CLS and RET is SYS (R73, R75). -/
theorem decode_of_class0 {w : Word} (hc : fieldC w = 0x0) (hcls : w ≠ 0x00E0#16) (hret : w ≠ 0x00EE#16) :
    decode w = .sys (fieldNNN w) := by
  simp only [decode, hc, decode0, if_neg hcls, if_neg hret]

/-- Settles O14: SYS answers the state itself, and the mask of its row selects class 0. -/
theorem sysDoesNothing : Obligations.SysDoesNothing := by
  refine fun nnn s => ⟨⟨s, rfl, .refl [] s⟩, fun w hw hcls hret => ?_⟩
  have hc : fieldC w = 0x0 := of_decide_eq_true ((and_F000_beq w 0x0000#16 0x0 rfl).symm.trans (beq_iff_eq.mpr hw))
  exact decode_of_class0 hc hcls hret

/-- Settles O15: the next state is the state with one more diagnostic, at the address of the instruction. -/
theorem unmatchedWordOnlyEmitsADiagnostic : Obligations.UnmatchedWordOnlyEmitsADiagnostic :=
  fun w s => ⟨_, rfl, rfl, s.frame_diags (⟨s.pcI, w⟩ :: s.diags)⟩

/-! ## Fetching -/

/-- The end of the load changes the load port only (R241; log 20). -/
theorem State.frame_closeLoad (s : State) : Frame [.loadOpen] s s.closeLoad := by
  intro p hp; cases p <;> simp_all [StatePart.same, State.pixel, State.reg, State.byte]

/-- Settles O9: the cycle closes the load port and takes the fault at pc. -/
theorem fetchBeyondMemoryTakesMemRange : Obligations.FetchBeyondMemoryTakesMemRange := by
  intro s hr he hp
  have hstep : step s = .next (s.closeLoad.raiseAt s.pc .memRange) :=
    (step_of_no_events he).trans (executeCycle_of_no_fetch hr (s.fetch_eq_none_iff.mpr hp))
  have hframe : Frame ([.loadOpen] ++ [.status, .faultRecord]) s (s.closeLoad.raiseAt s.pc .memRange) :=
    s.frame_closeLoad.append (s.closeLoad.frame_raiseAt s.pc .memRange)
  exact ⟨_, hstep, rfl, rfl, rfl, hframe.mono (by decide)⟩

/-- A whole word can be fetched where a word is placed. -/
theorem State.fetchablePc_le (s : State) : s.fetchablePc.toNat ≤ 0xFFE := by
  unfold State.fetchablePc
  split
  case isTrue h => exact Nat.le_of_lt_succ (Nat.lt_of_succ_lt_succ h)
  case isFalse => decide

/-- A placed word is the one that is fetched: its two bytes stand at pc, big-endian (R52). -/
theorem State.fetch_placeWord (s : State) (w : Word) : (s.placeWord w).fetch = some w := by
  have hbyte (j : Nat) (hj : j < [highByte w, lowByte w].length) :
      (s.placeWord w).byte (s.fetchablePc.toNat + j) = [highByte w, lowByte w][j] :=
    s.byte_storeBytes_of_inside s.fetchablePc.toNat _ j hj
  have hhi : (s.placeWord w).byte (s.placeWord w).pc.toNat = highByte w := hbyte 0 (by simp)
  have hlo : (s.placeWord w).byte ((s.placeWord w).pc.toNat + 1) = lowByte w := hbyte 1 (by simp)
  rw [State.fetch_of_le _ s.fetchablePc_le, hhi, hlo, wordOf_bytes]

/-- Settles O10: the state with the word placed is Running, lists no event, and fetches that word. -/
theorem placedWordIsTheNextInstruction : Obligations.PlacedWordIsTheNextInstruction := by
  intro s nbits w
  have hplace : s.withFetchWord nbits w.toNat = s.placeWord w := by
    rw [State.withFetchWord, BitVec.ofNat_toNat, BitVec.setWidth_eq]
  rw [hplace]
  exact (step_of_no_events rfl).trans (executeCycle_of_fetch rfl (s.fetch_placeWord w))

/-! ## The moves while not Running -/

section
variable {s : State} (hr : s.status ≠ .running)
include hr

/-- No timer counts (R220). -/
theorem State.tick_of_not_running : s.tick = s := if_neg hr

/-- No key is written (R222; log 19). -/
theorem State.setKey_of_not_running (k : KeyIx) (b : Bool) : s.setKey k b = s := if_neg hr

theorem State.keyDown_of_not_running (k : KeyIx) : s.keyDown k = s := by
  rw [State.keyDown, State.setKey_of_not_running hr, ite_self]

theorem State.stopSignal_of_not_running : s.stopSignal = s := if_neg hr

/-- The load port is shut (R241; log 20). -/
theorem State.load_of_not_running (a : Addr) (d : Byte) : s.load a d = .fault (.loadNotAllowed a) :=
  if_neg fun h => hr h.1

/-- An event other than `rst` that answers a next state answers the state itself (R213, R222, R244). -/
theorem runEvent_of_not_running {e : Event} {t : State} (he : e ≠ .rst) (h : runEvent e s = .next t) : t = s := by
  cases e with
  | rst => contradiction
  | load a d => exact absurd ((State.load_of_not_running hr a d).symm.trans h) nofun
  | cpuStep => exact (Host.Outcome.next.inj ((executeCycle_of_not_running hr).symm.trans h)).symm
  | render => exact (Host.Outcome.next.inj h).symm
  | tick => exact (Host.Outcome.next.inj h).symm.trans (State.tick_of_not_running hr)
  | keyDown k => exact (Host.Outcome.next.inj h).symm.trans (State.keyDown_of_not_running hr k)
  | keyRelease k => exact (Host.Outcome.next.inj h).symm.trans (State.setKey_of_not_running hr k false)
  | stop => exact (Host.Outcome.next.inj h).symm.trans (State.stopSignal_of_not_running hr)

end

/-- Settles O11: with no event listed the cycle is not taken, and a listed event other than `rst` only leaves the list. -/
theorem onlyResetLeavesHaltedOrStopped : Obligations.OnlyResetLeavesHaltedOrStopped := by
  intro s t hr hrst h
  obtain ⟨hev, hs⟩ | ⟨e, rest, hev, hs⟩ := step_cases s
  · rw [hs, executeCycle_of_not_running hr] at h
    obtain rfl := Host.Outcome.next.inj h
    rw [hev, List.tail_nil, ← hev]
  · have he : e ≠ .rst := fun heq => hrst rest (heq ▸ hev)
    rw [hev]
    exact runEvent_of_not_running (s := s.withEvents rest) hr he (hs.symm.trans h)

/-! ## What answers a next state -/

/-- Settles O12: both branches of every instruction that branches answer a next state, the fault among them. -/
theorem everyInstructionAnswersANextState : Obligations.EveryInstructionAnswersANextState := by
  intro i s
  cases i with
  | ret =>
    obtain he | ⟨j, hj⟩ := s.empty_or_live
    · exact ⟨_, execRet_of_empty he⟩
    · exact ⟨_, execRet_of_live hj⟩
  | call nnn =>
    obtain hf | ⟨j, hj⟩ := s.full_or_room
    · exact ⟨_, execCall_of_full nnn hf⟩
    · exact ⟨_, execCall_of_room nnn hj⟩
  | skp x =>
    cases hk : keyOf (s.reg x) with
    | some k => exact ⟨_, execSkp_of_key hk⟩
    | none => exact ⟨_, execSkp_of_range hk⟩
  | sknp x =>
    cases hk : keyOf (s.reg x) with
    | some k => exact ⟨_, execSknp_of_key hk⟩
    | none => exact ⟨_, execSknp_of_range hk⟩
  | ldVxK x =>
    cases hk : firstKey s.key with
    | some k => exact ⟨_, execLdVxK_of_key x hk⟩
    | none => exact ⟨_, execLdVxK_of_none x hk⟩
  | drw _ _ _ | ldB _ | ldStore _ | ldLoad _ => exact s.checked_completes _ _ _
  | _ => exact ⟨_, rfl⟩

/-- A cycle answers a next state: the state, a fetch fault, or that of the instruction (R97). -/
theorem executeCycle_completes (s : State) : ∃ t, executeCycle s = .next t := by
  obtain ⟨-, he⟩ | ⟨-, -, he⟩ | ⟨-, -, w, -, he⟩ := executeCycle_cases s
  · exact ⟨_, he⟩
  · exact ⟨_, he⟩
  · exact he ▸ everyInstructionAnswersANextState (decode w) s.closeLoad.advance

/-- Every event other than a load-port write answers a next state. -/
theorem runEvent_completes {e : Event} (he : ∀ a d, e ≠ .load a d) (s : State) : ∃ t, runEvent e s = .next t := by
  cases e with
  | cpuStep => exact executeCycle_completes s
  | load a d => exact absurd rfl (he a d)
  | _ => exact ⟨_, rfl⟩

/-- Settles O13: a step is a cycle or a listed event that is no load-port write, and each answers a next state. -/
theorem stepStopsOnlyOnALoad : Obligations.StepStopsOnlyOnALoad := by
  intro s hload
  obtain ⟨-, hs⟩ | ⟨e, rest, hev, hs⟩ := step_cases s
  · exact hs ▸ executeCycle_completes s
  · have he (a : Addr) (d : Byte) : e ≠ .load a d := fun heq => hload a d rest (heq ▸ hev)
    exact hs ▸ runEvent_completes he (s.withEvents rest)

end Sys2Proof.Machine

/-! PROOFS. Control flow: where the jumps go, a call and a return with and without room on the stack, calls one after another, and
the skips. -/

namespace Sys2Proof.Machine

/-! ## Jumps -/

/-- Only a jump to the last byte of memory leaves no word to fetch (R91). -/
theorem State.fetch_eq_none_iff_of_target {t : State} {nnn : Addr} (h : t.pc = target nnn) :
    t.fetch = none ↔ nnn = 0xFFF#12 := by
  rw [State.fetch_eq_none_iff, h, target_toNat]
  bv_omega

/-- Settles O16: row 3 of the opcode map, and the one write of pc. -/
theorem jumpSetsPc : Obligations.JumpSetsPc :=
  ⟨rowDecodes_opcodeMap 3 (by decide) (by decide),
    fun nnn s => ⟨_, rfl, target_toNat nnn, s.frame_pc _, State.fetch_eq_none_iff_of_target rfl⟩⟩

/-- The sum fits 16 bits, so nothing of it is lost (R107). -/
theorem State.indexedTarget_toNat (s : State) (nnn : Addr) :
    (s.indexedTarget nnn).toNat = (s.reg 0).toNat + nnn.toNat := by
  rw [State.indexedTarget, BitVec.toNat_add, target_toNat, BitVec.toNat_setWidth]
  omega

/-- Settles O17: row 21 of the opcode map, and the one write of pc. -/
theorem jumpV0AddsV0 : Obligations.JumpV0AddsV0 :=
  ⟨rowDecodes_opcodeMap 21 (by decide) (by decide),
    fun nnn s => ⟨_, rfl, s.indexedTarget_toNat nnn, s.frame_pc _⟩⟩

/-! ## Calls and returns -/

/-- Settles O18: with `j` the first free entry, the call writes the stack at `j`, then SP, then pc. -/
theorem callPushesTheReturnAddress : Obligations.CallPushesTheReturnAddress := by
  refine ⟨rowDecodes_opcodeMap 4 (by decide) (by decide), fun nnn s j hj => ?_⟩
  have hframe : Frame [.stack, .SP, .pc] s { s with stack := s.stack.set j s.pc, SP := j.succ, pc := target nnn } :=
    ((s.frame_stack (s.stack.set j s.pc)).append (State.frame_SP _ j.succ)).append (State.frame_pc _ (target nnn))
  refine ⟨_, execCall_of_room nnn hj, ?top, fun k hk => ?others, ?depth, target_toNat nnn, hframe⟩
  case top => exact Vector.getElem_set_self j.isLt
  case others => exact Vector.getElem_set_ne j.isLt k.isLt fun h => hk (Fin.ext h.symm)
  case depth => rw [hj]; rfl

/-- Settles O19: with `j` the top entry, the return writes SP, then pc. -/
theorem retPopsTheReturnAddress : Obligations.RetPopsTheReturnAddress := by
  intro s j hj
  have hframe : Frame [.SP, .pc] s { s with SP := j.castSucc, pc := s.stack[j] } :=
    (s.frame_SP j.castSucc).append (State.frame_pc _ s.stack[j])
  exact ⟨_, execRet_of_live hj, rfl, by rw [hj]; rfl, hframe⟩

/-- Settles O20: the full and the empty stack each raise their fault. -/
theorem stackDepthViolationsAreFatal : Obligations.StackDepthViolationsAreFatal :=
  fun _ => ⟨fun nnn hfull => takesFault_of_raise (execCall_of_full nnn hfull),
    fun hempty => takesFault_of_raise (execRet_of_empty hempty)⟩

/-- Settles O21: the entry that the return pops is the one that the call pushed. -/
theorem retAfterCallRestoresPc : Obligations.RetAfterCallRestoresPc := by
  intro nnn s t u hroom hcall hstack hSP
  obtain ⟨t', hcall', htop, -, hdepth, -, -⟩ := callPushesTheReturnAddress.2 nnn s ⟨s.SP.val, hroom⟩ rfl
  obtain rfl := Host.Outcome.next.inj (hcall'.symm.trans hcall)
  obtain ⟨v, hret, hpc, hSPv, -⟩ := retPopsTheReturnAddress u ⟨s.SP.val, hroom⟩ (by rw [hSP, hdepth])
  refine ⟨v, hret, ?pc, Fin.ext ?SP⟩
  case pc => rw [hpc, hstack, htop]
  case SP => rw [hSPv, hSP, hdepth, Nat.add_sub_cancel]

/-! ## Calls one after another -/

theorem execAll_cons_of_next {i : Instr} {s t : State} (h : exec i s = .next t) (is : List Instr) :
    execAll (i :: is) s = execAll is t := by
  simp only [execAll, h]

/-- As many calls as there is room for succeed, and each takes one entry of the stack (R102). -/
theorem execAll_calls_of_room (targets : List Addr) : ∀ s : State, s.SP.val + targets.length ≤ 16 →
    ∃ t, execAll (targets.map .call) s = .next t ∧ t.SP.val = s.SP.val + targets.length ∧
      Frame [.stack, .SP, .pc] s t := by
  induction targets with
  | nil => exact fun s _ => ⟨s, rfl, rfl, .refl _ s⟩
  | cons nnn rest ih =>
    intro s hlen
    rw [List.length_cons] at hlen
    obtain ⟨t, hcall, -, -, hdepth, -, hframe⟩ := callPushesTheReturnAddress.2 nnn s ⟨s.SP.val, by omega⟩ rfl
    obtain ⟨u, hrest, hdepth', hframe'⟩ := ih t (by omega)
    refine ⟨u, (execAll_cons_of_next hcall _).trans hrest, ?_, hframe.trans hframe'⟩
    rw [List.length_cons]
    omega

/-- Settles O22: the calls fill the stack, and on a full stack any call is fatal. -/
theorem sixteenCallsSucceedThenOverflow : Obligations.SixteenCallsSucceedThenOverflow := by
  intro targets s hlen
  obtain ⟨t, hrun, hdepth, hframe⟩ := execAll_calls_of_room targets s hlen.le
  have hfull : t.SP.val = 16 := hdepth.trans hlen
  exact ⟨t, hrun, hfull, hframe .status (by decide), fun nnn => (stackDepthViolationsAreFatal t).1 nnn hfull⟩

/-! ## Skips -/

/-- A skip on equal bytes, as R103 and R105 say it. -/
theorem writesPc_of_skipIf_eq {i : Instr} {s : State} {a b : Byte} (h : exec i s = .next (s.skipIf (a == b))) :
    WritesPc i s (if a = b then s.pc + 2 else s.pc) := by
  refine ⟨_, h, ?_, s.frame_skipIf _⟩
  simp only [State.skipIf_pc, beq_iff_eq]

/-- A skip on different bytes, as R104 and R106 say it. -/
theorem writesPc_of_skipIf_ne {i : Instr} {s : State} {a b : Byte} (h : exec i s = .next (s.skipIf (a != b))) :
    WritesPc i s (if a = b then s.pc else s.pc + 2) := by
  refine ⟨_, h, ?_, s.frame_skipIf _⟩
  simp only [State.skipIf_pc, bne_iff_ne, ne_eq, ite_not]

/-- Settles O23: rows 5 and 6 of the opcode map, and the two skips on an immediate. -/
theorem skipsOnImmediate : Obligations.SkipsOnImmediate :=
  ⟨rowDecodes_opcodeMap 5 (by decide) (by decide), rowDecodes_opcodeMap 6 (by decide) (by decide),
    fun _ _ _ => ⟨writesPc_of_skipIf_eq rfl, writesPc_of_skipIf_ne rfl⟩⟩

/-- Settles O24: rows 7 and 19 of the opcode map, and the two skips on registers. -/
theorem skipsOnRegisters : Obligations.SkipsOnRegisters :=
  ⟨rowDecodes_opcodeMap 7 (by decide) (by decide), rowDecodes_opcodeMap 19 (by decide) (by decide),
    fun _ _ _ => ⟨writesPc_of_skipIf_eq rfl, writesPc_of_skipIf_ne rfl⟩⟩

end Sys2Proof.Machine

/-! PROOFS. The ALU: the sums, differences, shifts and flags as arithmetic on bytes, a result written with and without a flag,
and the instructions of R121 to R132. -/

namespace Sys2Proof.Machine

/-! ## Results and flags as arithmetic -/

/-- The sum wraps as the addition of bytes does (R120.2). -/
theorem addWrap_eq_add (a b : Byte) : addWrap a b = a + b := by
  rw [addWrap, ← BitVec.toNat_add, BitVec.ofNat_toNat, BitVec.setWidth_eq]

/-- The difference wraps as the subtraction of bytes does (R120.2). -/
theorem subWrap_eq_sub (a b : Byte) : subWrap a b = a - b := by
  apply BitVec.eq_of_toInt_eq
  rw [subWrap, BitVec.toInt_ofInt, BitVec.toInt_sub, BitVec.toInt_eq_toNat_bmod, BitVec.toInt_eq_toNat_bmod,
    Int.sub_bmod_bmod, Int.bmod_sub_bmod]
  exact Int.emod_bmod _ 256

theorem flagOf_decide (p : Prop) [Decidable p] : flagOf (decide p) = if p then 1 else 0 := by
  simp only [flagOf, decide_eq_true_eq]

theorem carryFlag_eq_ite (a b : Byte) : carryFlag a b = if a.toNat + b.toNat > 255 then 1 else 0 := flagOf_decide _

theorem noBorrowFlag_eq_ite (a b : Byte) : noBorrowFlag a b = if b.toNat ≤ a.toNat then 1 else 0 := flagOf_decide _

theorem shiftRight_one_eq_half (a : Byte) : a >>> 1 = BitVec.ofNat 8 (a.toNat / 2) := by bv_omega

theorem shiftLeft_one_eq_double (a : Byte) : a <<< 1 = BitVec.ofNat 8 (a.toNat * 2 % 256) := by bv_omega

/-- Bit 0 is the number modulo 2 (R129). -/
theorem lowBitFlag_eq_mod (a : Byte) : lowBitFlag a = BitVec.ofNat 8 (a.toNat % 2) := by
  have hbit : (lowBitFlag a).toNat = a.toNat % 2 := (BitVec.toNat_and a 1).trans (Nat.and_one_is_mod a.toNat)
  rw [← hbit, BitVec.ofNat_toNat, BitVec.setWidth_eq]

/-- Bit 7 is what division by 128 leaves of a byte (R131). -/
theorem highBitFlag_eq_div (a : Byte) : highBitFlag a = BitVec.ofNat 8 (a.toNat / 128) := by
  have hshift : (a >>> 7).toNat = a.toNat / 128 := by rw [BitVec.toNat_ushiftRight, Nat.shiftRight_eq_div_pow]
  have hbit : a.toNat / 128 % 2 = a.toNat / 128 := by omega
  rw [← hbit, ← hshift]
  exact lowBitFlag_eq_mod (a >>> 7)

/-! ## The two ways a result is written -/

theorem writesReg_of_setReg {i : Instr} {s : State} {x : Reg} {v' v : Byte} (h : exec i s = .next (s.setReg x v'))
    (hv : v' = v) : WritesReg i s x v :=
  ⟨_, h, (s.reg_setReg_self x v').trans hv, s.regFrame_setReg x v', s.frame_setReg x v'⟩

/-- The result is written last, so it stays where x = F, and elsewhere VF keeps the flag (R120.8; log 9). -/
theorem writesRegAndFlag_of_setFlagThenReg {i : Instr} {s : State} {x : Reg} {v' v f' f : Byte}
    (h : exec i s = .next (s.setFlagThenReg x f' v')) (hv : v' = v) (hf : f' = f) : WritesRegAndFlag i s x v f := by
  subst hv hf
  refine ⟨_, h, ?result, fun hx => ?flag, fun r hr => ?others, s.frame_setFlagThenReg x f' v'⟩
  case result => rw [State.reg_setFlagThenReg, if_pos rfl]
  case flag => rw [State.reg_setFlagThenReg, if_neg hx]; rfl
  case others => exact s.regFrame_setFlagThenReg x f' v' r (by simpa [or_comm] using hr)

/-! ## Loads, addition and logic without a flag -/

/-- Settles O25: rows 8 to 10 of the opcode map, and the one write of V[x]. -/
theorem loadsAndAddImmediate : Obligations.LoadsAndAddImmediate :=
  ⟨rowDecodes_opcodeMap 8 (by decide) (by decide), rowDecodes_opcodeMap 9 (by decide) (by decide),
    rowDecodes_opcodeMap 10 (by decide) (by decide),
    fun _ _ _ _ => ⟨writesReg_of_setReg rfl rfl, writesReg_of_setReg rfl (addWrap_eq_add _ _),
      writesReg_of_setReg rfl rfl⟩⟩

/-- Settles O26: rows 11 to 13 of the opcode map, and the one write of V[x]. -/
theorem bitwiseLogic : Obligations.BitwiseLogic :=
  ⟨rowDecodes_opcodeMap 11 (by decide) (by decide), rowDecodes_opcodeMap 12 (by decide) (by decide),
    rowDecodes_opcodeMap 13 (by decide) (by decide),
    fun _ _ _ => ⟨writesReg_of_setReg rfl rfl, writesReg_of_setReg rfl rfl, writesReg_of_setReg rfl rfl⟩⟩

/-! ## Arithmetic and shifts with a flag -/

/-- Settles O27: row 14 of the opcode map, and the sum written after the carry. -/
theorem addSetsCarry : Obligations.AddSetsCarry :=
  ⟨rowDecodes_opcodeMap 14 (by decide) (by decide),
    fun _ _ _ => writesRegAndFlag_of_setFlagThenReg rfl (addWrap_eq_add _ _) (carryFlag_eq_ite _ _)⟩

/-- Settles O28: rows 15 and 17 of the opcode map, and the difference written after the flag. -/
theorem subtractionsSetNoBorrow : Obligations.SubtractionsSetNoBorrow :=
  ⟨rowDecodes_opcodeMap 15 (by decide) (by decide), rowDecodes_opcodeMap 17 (by decide) (by decide),
    fun _ _ _ => ⟨writesRegAndFlag_of_setFlagThenReg rfl (subWrap_eq_sub _ _) (noBorrowFlag_eq_ite _ _),
      writesRegAndFlag_of_setFlagThenReg rfl (subWrap_eq_sub _ _) (noBorrowFlag_eq_ite _ _)⟩⟩

/-- Settles O29: rows 16 and 18 of the opcode map, and the shifted value written after the dropped bit. -/
theorem shiftsSetTheDroppedBit : Obligations.ShiftsSetTheDroppedBit :=
  ⟨rowDecodes_opcodeMap 16 (by decide) (by decide), rowDecodes_opcodeMap 18 (by decide) (by decide),
    fun _ _ _ => ⟨writesRegAndFlag_of_setFlagThenReg rfl (shiftRight_one_eq_half _) (lowBitFlag_eq_mod _),
      writesRegAndFlag_of_setFlagThenReg rfl (shiftLeft_one_eq_double _) (highBitFlag_eq_div _)⟩⟩

/-! ## The random byte -/

/-- Settles O30: row 22 of the opcode map, and the write of V[x] followed by that of the number of draws. -/
theorem rndMasksTheDraw : Obligations.RndMasksTheDraw := by
  refine ⟨rowDecodes_opcodeMap 22 (by decide) (by decide), fun x nn s => ?_⟩
  have hreg : (s.setReg x (Config.rnd s.draws &&& nn)).reg x = Config.rnd s.draws &&& nn := s.reg_setReg_self x _
  have hframe : Frame [.V, .draws] s { s.setReg x (Config.rnd s.draws &&& nn) with draws := s.draws + 1 } :=
    (s.frame_setReg x _).append (State.frame_draws _ (s.draws + 1))
  refine ⟨_, rfl, hreg, rfl, fun hzero => hreg.trans ?noBit, fun hones => hreg.trans ?everyBit, s.regFrame_setReg x _,
    hframe⟩
  case noBit => rw [hzero]; exact BitVec.and_zero
  case everyBit => rw [hones]; exact BitVec.and_allOnes

end Sys2Proof.Machine

/-! PROOFS. The index register and the transfers: the arithmetic of I and of the decimal digits, Fx33, Fx55 and Fx65 within memory,
and a load of what a store left. -/

namespace Sys2Proof.Machine

/-! ## The writers of I -/

/-- The sum is reduced to 12 bits, so nothing more of it is lost in 16 (R151). -/
theorem indexSum_toNat (i : Word) (v : Byte) : (indexSum i v).toNat = (i.toNat + v.toNat) % 4096 := by
  simp only [indexSum, Config.memSize, BitVec.toNat_ofNat]
  omega

/-- Five times a byte fits 16 bits (R152). -/
theorem glyphAddress_toNat (v : Byte) : (glyphAddress v).toNat = v.toNat * 5 := by
  simp only [glyphAddress, Config.glyphSize, BitVec.toNat_ofNat]
  omega

/-- Settles O31: rows 20, 30 and 31 of the opcode map, and the one write of I. -/
theorem indexRegisterWrites : Obligations.IndexRegisterWrites :=
  ⟨rowDecodes_opcodeMap 20 (by decide) (by decide), rowDecodes_opcodeMap 30 (by decide) (by decide),
    rowDecodes_opcodeMap 31 (by decide) (by decide),
    fun nnn x s => ⟨⟨_, rfl, target_toNat nnn, s.frame_I _⟩, ⟨_, rfl, indexSum_toNat s.I (s.reg x), s.frame_I _⟩,
      ⟨_, rfl, glyphAddress_toNat (s.reg x), s.frame_I _⟩⟩⟩

/-! ## The decimal digits -/

/-- A number at most that of a byte fits a byte. -/
theorem toNat_ofNat_of_le_byte (v : Byte) {d : Nat} (hd : d ≤ v.toNat) : (BitVec.ofNat 8 d).toNat = d :=
  (BitVec.toNat_ofNat d 8).trans (Nat.mod_eq_of_lt (hd.trans_lt v.isLt))

/-- Where Fx33 has stored its digits, the hundreds stand first and the ones last (R153). -/
theorem State.toNat_byte_storeBytes_bcdDigits (s : State) (a : Nat) (v : Byte) :
    ((s.storeBytes a (bcdDigits v)).byte a).toNat = v.toNat / 100 ∧
    ((s.storeBytes a (bcdDigits v)).byte (a + 1)).toNat = v.toNat / 10 % 10 ∧
    ((s.storeBytes a (bcdDigits v)).byte (a + 2)).toNat = v.toNat % 10 := by
  have hbyte (j : Nat) (hj : j < 3) : (s.storeBytes a (bcdDigits v)).byte (a + j) = (bcdDigits v)[j]'hj :=
    s.byte_storeBytes_of_inside a (bcdDigits v) j hj
  refine ⟨(congrArg BitVec.toNat (hbyte 0 (by decide))).trans ?hundreds,
    (congrArg BitVec.toNat (hbyte 1 (by decide))).trans ?tens,
    (congrArg BitVec.toNat (hbyte 2 (by decide))).trans ?ones⟩
  case hundreds => exact toNat_ofNat_of_le_byte v (Nat.div_le_self _ _)
  case tens => exact toNat_ofNat_of_le_byte v ((Nat.mod_le _ _).trans (Nat.div_le_self _ _))
  case ones => exact toNat_ofNat_of_le_byte v (Nat.mod_le _ _)

/-- Fx33 within memory is the store of the three digits (R153). -/
theorem execLdB_of_le {x : Reg} {s : State} (h : s.I.toNat + 2 ≤ 0xFFF) :
    execLdB x s = .next (s.storeBytes s.base (bcdDigits (s.reg x))) :=
  s.checked_of_le _ (by rw [State.base]; omega)

/-- Settles O32: row 32 of the opcode map, and the digits at the three positions of the store. -/
theorem ldBStoresTheDecimalDigits : Obligations.LdBStoresTheDecimalDigits := by
  refine ⟨rowDecodes_opcodeMap 32 (by decide) (by decide), fun x s hI => ?_⟩
  obtain ⟨hhundreds, htens, hones⟩ := s.toNat_byte_storeBytes_bcdDigits s.base (s.reg x)
  exact ⟨_, execLdB_of_le hI, hhundreds, htens, hones, by omega, s.memFrame_storeBytes s.base (bcdDigits (s.reg x)),
    s.frame_storeBytes s.base _⟩

/-! ## The registers -/

/-- Fx65 within memory is the load of V[0] to V[x] (R155). -/
theorem execLdLoad_of_le {x : Reg} {s : State} (h : s.I.toNat + x.val ≤ 0xFFF) :
    execLdLoad x s = .next (s.loadRegs s.base (x.val + 1)) :=
  s.checked_of_le _ (by rw [State.base]; omega)

/-- A store of V[0] to V[x] changes no byte outside the x + 1 it writes (R154). -/
theorem State.memFrame_storeBytes_regsUpTo (s : State) (a : Nat) (x : Reg) :
    MemFrame a (x.val + 1) s (s.storeBytes a (s.regsUpTo x)) :=
  s.length_regsUpTo x ▸ s.memFrame_storeBytes a (s.regsUpTo x)

/-- Settles O33: row 33 of the opcode map, and the store of V[0] to V[x]. -/
theorem ldStoreStoresTheRegisters : Obligations.LdStoreStoresTheRegisters :=
  ⟨rowDecodes_opcodeMap 33 (by decide) (by decide),
    fun x s hI => ⟨_, execLdStore_of_le hI, fun _ hr => s.byte_storeBytes_regsUpTo s.base hr,
      s.memFrame_storeBytes_regsUpTo s.base x, s.frame_storeBytes s.base _⟩⟩

/-- Settles O34: row 34 of the opcode map, and the load of the registers of number at most x. -/
theorem ldLoadLoadsTheRegisters : Obligations.LdLoadLoadsTheRegisters := by
  refine ⟨rowDecodes_opcodeMap 34 (by decide) (by decide), fun x s hI => ?_⟩
  have hreg (r : Reg) : (s.loadRegs s.base (x.val + 1)).reg r =
      if r.val < x.val + 1 then s.byte (s.base + r.val) else s.reg r := s.reg_loadRegs s.base _ x.isLt r
  refine ⟨_, execLdLoad_of_le hI, fun r hr => ?loaded, fun r hr => ?kept, s.frame_loadRegs s.base _⟩
  case loaded => exact (hreg r).trans (if_pos (Nat.lt_succ_of_le hr))
  case kept => exact (hreg r).trans (if_neg (Nat.not_lt_of_le hr))

/-- Settles O36: the byte that the load reads at I + r is the one that the store wrote from V[r]. -/
theorem loadAfterStoreRestoresRegisters : Obligations.LoadAfterStoreRestoresRegisters := by
  intro x s t u hI hstore hmem huI
  obtain ⟨t', hstore', hstored, -⟩ := ldStoreStoresTheRegisters.2 x s hI
  obtain rfl := Host.Outcome.next.inj (hstore'.symm.trans hstore)
  obtain ⟨v, hload, hloaded, -⟩ := ldLoadLoadsTheRegisters.2 x u (by rw [huI]; exact hI)
  refine ⟨v, hload, fun r hr => ?_⟩
  calc v.reg r
    _ = u.byte (u.I.toNat + r.val) := hloaded r hr
    _ = t'.byte (s.base + r.val) := by rw [huI, State.byte_congr hmem]; rfl
    _ = s.reg r := hstored r hr

end Sys2Proof.Machine

/-! PROOFS. The display: 00E0, the pixels under a sprite and the collision of one draw, and a second draw of the same
sprite. -/

namespace Sys2Proof.Machine

/-! ## Clearing -/

/-- Settles O38: a sample word, and the write of the display only. -/
theorem clsClearsTheDisplay : Obligations.ClsClearsTheDisplay :=
  ⟨by decide, fun s => ⟨_, rfl, Display.at_clear, s.frame_pix _⟩⟩

/-! ## The sprite on the display -/

/-- The 1 bits of the sprite as `covers` reads them from memory and as the XOR-plot unit reads them from its bytes (R172). -/
theorem State.covers_iff_SpriteBit (s : State) (x y : Reg) (n : Nibble) (px : Fin 64) (py : Fin 32) :
    s.covers x y n px py ↔
      SpriteBit (s.reg x).toNat (s.reg y).toNat (s.bytesAt s.base n.toNat) px py := by
  constructor
  · rintro ⟨row, col, hrow, hcol, hbit, hpx, hpy⟩
    refine ⟨row, by rwa [State.length_bytesAt], ⟨col, Nat.zero_le _, by omega, ?_, Fin.ext hpx.symm⟩,
      Fin.ext hpy.symm⟩
    rwa [State.getElem_bytesAt]
  · rintro ⟨row, hrow, ⟨col, -, hcol, hbit, hpx⟩, hpy⟩
    rw [State.getElem_bytesAt] at hbit
    rw [State.length_bytesAt] at hrow
    exact ⟨row, col, hrow, by omega, hbit, congrArg Fin.val hpx.symm, congrArg Fin.val hpy.symm⟩

/-- A sprite has at most 15 rows, so no two of them share a row of the display. -/
theorem State.length_bytesAt_nibble_le (s : State) (a : Nat) (n : Nibble) : (s.bytesAt a n.toNat).length ≤ 32 := by
  rw [State.length_bytesAt]
  omega

/-- Plotting inverts a pixel under a 1 bit (R171). -/
theorem State.sprite_at_of_covers {s : State} {x y : Reg} {n : Nibble} {px : Fin 64} {py : Fin 32}
    (h : s.covers x y n px py) : Display.at (s.sprite x y n).1 px py = !s.pixel px py := by
  have hbit := (s.covers_iff_SpriteBit x y n px py).mp h
  simp only [State.sprite, plotRows_at _ _ _ _ (s.length_bytesAt_nibble_le _ n), hbit, decide_true, Bool.xor_true]
  rfl

/-- Plotting keeps every other pixel (R171). -/
theorem State.sprite_at_of_not_covers {s : State} {x y : Reg} {n : Nibble} {px : Fin 64} {py : Fin 32}
    (h : ¬ s.covers x y n px py) : Display.at (s.sprite x y n).1 px py = s.pixel px py := by
  have hbit := mt (s.covers_iff_SpriteBit x y n px py).mpr h
  simp only [State.sprite, plotRows_at _ _ _ _ (s.length_bytesAt_nibble_le _ n), hbit, decide_false, Bool.xor_false]
  rfl

/-- The hit is raised exactly where a covered pixel was on (R173). -/
theorem State.sprite_hit_iff (s : State) (x y : Reg) (n : Nibble) :
    (s.sprite x y n).2 = true ↔ ∃ px py, s.covers x y n px py ∧ s.pixel px py = true := by
  rw [State.sprite, plotRows_hit _ _ _ _ (s.length_bytesAt_nibble_le _ n)]
  simp only [State.covers_iff_SpriteBit, Bool.false_eq_true, false_or]
  rfl

/-! ## One draw -/

theorem flagOf_eq_one_iff (b : Bool) : flagOf b = 1 ↔ b = true := by cases b <;> decide

/-- Dxyn with its sprite in memory, or with no rows, is the plot followed by the write of VF (R171; log 11). -/
theorem execDrw_of_le {x y : Reg} {n : Nibble} {s : State} (h : n.toNat = 0 ∨ s.I.toNat + n.toNat - 1 ≤ 0xFFF) :
    execDrw x y n s =
      .next ({ s with pix := (s.sprite x y n).1 }.setReg vF (flagOf (s.sprite x y n).2)) :=
  if_pos ((inMemory_iff _ _).mpr (by rw [State.base]; omega))

/-- Settles O40: VF is the hit of the plot. -/
theorem collisionMeansAPixelWasOn : Obligations.CollisionMeansAPixelWasOn := by
  intro x y n s t hI h
  obtain rfl := Host.Outcome.next.inj ((execDrw_of_le hI).symm.trans h)
  rw [show (15 : Reg) = vF from rfl, State.reg_setReg_self, flagOf_eq_one_iff, State.sprite_hit_iff]

/-- Settles O39: row 23 of the opcode map, and a covered pixel is off after the draw exactly when it was on before. -/
theorem drwXorsTheSpriteAndReportsCollision : Obligations.DrwXorsTheSpriteAndReportsCollision := by
  refine ⟨rowDecodes_opcodeMap 23 (by decide) (by decide), fun x y n s hI => ?_⟩
  refine ⟨_, execDrw_of_le hI, fun px py => State.sprite_at_of_covers, fun px py => State.sprite_at_of_not_covers,
    fun ⟨px, py, hc, hoff⟩ => ?hit, fun hno => ?miss, State.regFrame_setReg _ vF _,
    ((s.frame_pix _).append (State.frame_setReg _ vF _)).mono (by decide)⟩
  case hit =>
    have hon : s.pixel px py = true := by simpa using (State.sprite_at_of_covers hc).symm.trans hoff
    exact (collisionMeansAPixelWasOn x y n s _ hI (execDrw_of_le hI)).mpr ⟨px, py, hc, hon⟩
  case miss =>
    have hmiss : (s.sprite x y n).2 = false := by
      rw [← Bool.not_eq_true, State.sprite_hit_iff]
      rintro ⟨px, py, hc, hon⟩
      exact hno ⟨px, py, hc, (State.sprite_at_of_covers hc).trans (by rw [hon]; rfl)⟩
    exact (State.reg_setReg_self _ vF _).trans (by rw [hmiss]; rfl)

/-! ## A second draw -/

/-- A draw that keeps its coordinates leaves the sprite under the same pixels, as it writes neither I nor memory. -/
theorem covers_iff_of_exec_drw {x y : Reg} {n : Nibble} {s t : State} (h : exec (.drw x y n) s = .next t)
    (hx : t.reg x = s.reg x) (hy : t.reg y = s.reg y) (px : Fin 64) (py : Fin 32) :
    t.covers x y n px py ↔ s.covers x y n px py := by
  have hI : t.I = s.I := exec_frame h .I (by simp [Instr.mayChange])
  have hbyte : ∀ a, t.byte a = s.byte a := exec_frame h .mem (by simp [Instr.mayChange])
  simp only [State.covers, State.spriteBit, hI, hbyte, hx, hy]

/-- Settles O41: a covered pixel is inverted twice and any other never, and it is on between the draws exactly when it was
off before them. -/
theorem drawingTwiceRestoresTheDisplay : Obligations.DrawingTwiceRestoresTheDisplay := by
  intro x y n s t u hI hst hx hy htu
  have hcov := covers_iff_of_exec_drw hst hx hy
  have htI : n.toNat = 0 ∨ t.I.toNat + n.toNat - 1 ≤ 0xFFF := by
    rwa [exec_frame hst .I (by simp [Instr.mayChange])]
  have hvf := collisionMeansAPixelWasOn x y n t u htI htu
  obtain ⟨t', ht', hinv, hkept, -⟩ := drwXorsTheSpriteAndReportsCollision.2 x y n s hI
  obtain rfl := Host.Outcome.next.inj (ht'.symm.trans hst)
  obtain ⟨u', hu', hinv', hkept', -⟩ := drwXorsTheSpriteAndReportsCollision.2 x y n t' htI
  obtain rfl := Host.Outcome.next.inj (hu'.symm.trans htu)
  refine ⟨Display.ext_at _ _ fun px py => ?restored, hvf.trans (exists₂_congr fun px py => ?between)⟩
  case restored =>
    by_cases hc : s.covers x y n px py
    · exact (hinv' px py ((hcov px py).mpr hc)).trans (by rw [hinv px py hc, Bool.not_not]; rfl)
    · exact (hkept' px py (mt (hcov px py).mp hc)).trans (hkept px py hc)
  case between =>
    rw [hcov px py]
    exact and_congr_right fun hc => by rw [hinv px py hc, Bool.not_eq_true']

/-- Refutes O42: of three draws from reset of the top row of glyph 0, the second finds the four pixels on and the third finds
them off, so the third does not collide although its sprite has 1 bits (log 29). -/
theorem not_secondDrawCollidesWhenSpriteHasABit : ¬ Obligations.SecondDrawCollidesWhenSpriteHasABit := by
  intro hclaim
  obtain ⟨s, t, u, hs, ht, htx, hu, hbit, hvf⟩ : ∃ s t u : State, exec (.drw 0 0 1) State.reset = .next s ∧
      exec (.drw 0 0 1) s = .next t ∧ t.reg 0 = s.reg 0 ∧ exec (.drw 0 0 1) t = .next u ∧
      (s.byte (s.base + 0)).getLsbD (7 - 0) = true ∧ u.reg 15 = 0 :=
    ⟨_, _, _, rfl, rfl, by decide, rfl, by decide, by decide⟩
  have hI : s.I = State.reset.I := exec_frame hs .I (by decide)
  have hcollides : u.reg 15 = 1 :=
    (hclaim 0 0 1 s t u (by rw [hI]; decide) ht htx htx hu).mpr ⟨0, 0, by decide, by decide, hbit⟩
  exact absurd (hvf.symm.trans hcollides) (by decide)

end Sys2Proof.Machine

/-! PROOFS. Timers and keys: key numbers and the lowest pressed key, the instructions that read and write the timers, the skips on a
key and the wait for one, and that no instruction reads ST. -/

namespace Sys2Proof.Machine

/-! ## Timers -/

/-- Settles O43: rows 26 and 28 of the opcode map, the one write of V[x], and the one write of DT. -/
theorem delayTimerIsReadAndWritten : Obligations.DelayTimerIsReadAndWritten :=
  ⟨rowDecodes_opcodeMap 26 (by decide) (by decide), rowDecodes_opcodeMap 28 (by decide) (by decide),
    fun _ s => ⟨writesReg_of_setReg rfl rfl, _, rfl, rfl, s.frame_DT _⟩⟩

theorem State.soundActive_iff (s : State) : s.soundActive = true ↔ s.ST ≠ 0 := bne_iff_ne

/-- Settles O44: row 29 of the opcode map, and the one write of ST. -/
theorem soundTimerDrivesSoundActive : Obligations.SoundTimerDrivesSoundActive :=
  ⟨rowDecodes_opcodeMap 29 (by decide) (by decide),
    fun _ s => ⟨_, rfl, rfl, State.soundActive_iff _, s.frame_ST _⟩⟩

/-! ## Skips on a key -/

theorem keyOf_of_toNat_eq {v : Byte} {k : KeyIx} (h : v.toNat = k.val) : keyOf v = some k := by
  have hlt : v.toNat < 16 := h ▸ k.isLt
  rw [keyOf, dif_pos hlt]
  exact congrArg some (Fin.ext h)

theorem keyOf_of_lt {v : Byte} (h : 15 < v.toNat) : keyOf v = none := dif_neg (Nat.not_lt_of_le h)

/-- A skip on a condition, as R190 says it. -/
theorem writesPc_of_skipIf {i : Instr} {s : State} {c : Bool} (h : exec i s = .next (s.skipIf c)) :
    WritesPc i s (if c = true then s.pc + 2 else s.pc) :=
  ⟨_, h, s.skipIf_pc c, s.frame_skipIf c⟩

/-- A skip where a condition does not hold, as R191 says it. -/
theorem writesPc_of_skipIf_not {i : Instr} {s : State} {c : Bool} (h : exec i s = .next (s.skipIf (!c))) :
    WritesPc i s (if c = true then s.pc else s.pc + 2) := by
  have hskip := writesPc_of_skipIf h
  cases c <;> exact hskip

/-- Settles O45: rows 24 and 25 of the opcode map, and V[x] is the number of key `k`. -/
theorem skipsOnAKey : Obligations.SkipsOnAKey := by
  refine ⟨rowDecodes_opcodeMap 24 (by decide) (by decide), rowDecodes_opcodeMap 25 (by decide) (by decide),
    fun x s k hk => ?_⟩
  have hkey : keyOf (s.reg x) = some k := keyOf_of_toNat_eq hk
  exact ⟨writesPc_of_skipIf (execSkp_of_key hkey), writesPc_of_skipIf_not (execSknp_of_key hkey)⟩

/-- Settles O46: V[x] is the number of no key, so both instructions raise. -/
theorem keyNumberAboveFifteenIsFatal : Obligations.KeyNumberAboveFifteenIsFatal := by
  intro x s h
  have hkey : keyOf (s.reg x) = none := keyOf_of_lt h
  exact ⟨takesFault_of_raise (execSkp_of_range hkey), takesFault_of_raise (execSknp_of_range hkey)⟩

/-! ## The wait for a key -/

/-- The scan stops at the first pressed key (R193). -/
theorem firstKey_of_lowest {key : Vector Bool 16} {k : KeyIx} (hk : key[k] = true)
    (hlow : ∀ j : KeyIx, j < k → key[j] = false) : firstKey key = some k := by
  refine List.find?_eq_some_iff_getElem.mpr ⟨hk, k.val, by simp, List.getElem_finRange _, fun j hj => ?_⟩
  have hjk : key[(⟨j, hj.trans k.isLt⟩ : KeyIx)] = false := hlow _ hj
  rw [List.getElem_finRange]
  exact congrArg not hjk

/-- The scan of a latch with no key pressed finds none (R193). -/
theorem firstKey_of_no_key {key : Vector Bool 16} (h : ∀ j : KeyIx, key[j] = false) : firstKey key = none :=
  List.find?_eq_none.mpr fun j _ => Bool.not_eq_true _ ▸ h j

/-- Settles O47: row 27 of the opcode map, and the one write of V[x], to which the number of a key fits. -/
theorem keyWaitTakesTheLowestKey : Obligations.KeyWaitTakesTheLowestKey := by
  refine ⟨rowDecodes_opcodeMap 27 (by decide) (by decide), fun x s k hk hlow => ?_⟩
  obtain ⟨t, ht, hreg, hregs, hframe⟩ : WritesReg (.ldVxK x) s x (BitVec.ofNat 8 k.val) :=
    writesReg_of_setReg (execLdVxK_of_key x (firstKey_of_lowest hk hlow)) rfl
  have hfits : (BitVec.ofNat 8 k.val).toNat = k.val :=
    (BitVec.toNat_ofNat k.val 8).trans (Nat.mod_eq_of_lt (k.isLt.trans (by decide)))
  exact ⟨t, ht, (congrArg BitVec.toNat hreg).trans hfits, hregs, hframe⟩

/-- Fx0A with no key pressed takes the fetch's advance back (R91, R193). -/
theorem execLdVxK_advance_of_no_key {s : State} (x : Reg) (h : ∀ j : KeyIx, s.key[j] = false) :
    execLdVxK x s.advance = .next s := by
  rw [execLdVxK_of_none (s := s.advance) x (firstKey_of_no_key h), State.advance_pc, BitVec.add_sub_cancel]
  rfl

/-- Settles O48: the cycle closes the load port, advances, and takes the advance back. -/
theorem keyWaitRunsAgainWithNoKey : Obligations.KeyWaitRunsAgainWithNoKey := by
  intro x s hkeys hr he hf
  have hdecode : decode (encode (.ldVxK x)) = .ldVxK x := decodeOfEncodeIsTheInstruction _ rfl
  refine ⟨s.closeLoad, ?_, s.frame_closeLoad⟩
  rw [step_of_no_events he, executeCycle_of_fetch hr hf, hdecode]
  exact execLdVxK_advance_of_no_key x hkeys

/-! ## No instruction reads ST -/

/-- The same state but for its sound timer. -/
abbrev State.withST (s : State) (st : Byte) : State := { s with ST := st }

section
variable (s : State) (st : Byte)

theorem State.skipIf_withST (c : Bool) : (s.withST st).skipIf c = (s.skipIf c).withST st := by
  cases c <;> rfl

theorem State.loadRegs_withST (a n : Nat) : (s.withST st).loadRegs a n = (s.loadRegs a n).withST st := by
  induction n with
  | zero => rfl
  | succ n ih => rw [State.loadRegs, ih]; rfl

theorem State.bytesAt_withST (n : Nat) : ∀ a, (s.withST st).bytesAt a n = s.bytesAt a n := by
  induction n with
  | zero => exact fun _ => rfl
  | succ n ih => exact fun a => congrArg (List.cons _) (ih (a + 1))

theorem State.sprite_withST (x y : Reg) (n : Nibble) : (s.withST st).sprite x y n = s.sprite x y n := by
  rw [State.sprite, State.bytesAt_withST]
  rfl

end

/-- A range check does not read ST. -/
theorem State.checked_withST {s d t : State} {a n : Nat} (h : s.checked a n d = .next t) (st : Byte) :
    (s.withST st).checked a n (d.withST st) = .next (t.withST st) := by
  obtain ⟨hm, rfl⟩ | ⟨hm, rfl⟩ := State.checked_cases h
  · exact if_pos hm
  · exact if_neg (Bool.not_eq_true _ ▸ hm)

/-- A branch of an instruction that is taken whatever ST is, and does not read it. -/
theorem withST_of_next {i : Instr} {s d t : State} {st : Byte} (h : exec i s = .next t) (hd : exec i s = .next d)
    (hd' : exec i (s.withST st) = .next (d.withST st)) : exec i (s.withST st) = .next (t.withST st) := by
  obtain rfl := Host.Outcome.next.inj (hd.symm.trans h)
  exact hd'

/-- Only Fx18 writes ST (R27). -/
theorem Instr.ST_mem_mayChange {i : Instr} (h : StatePart.ST ∈ i.mayChange) : ∃ x, i = .ldSt x := by
  cases i with
  | ldSt x => exact ⟨x, rfl⟩
  | _ => simp [Instr.mayChange] at h

/-- An instruction that does not write ST does the same whatever ST is, and keeps it (R195, R218). -/
theorem exec_withST {i : Instr} {s t : State} (hi : StatePart.ST ∉ i.mayChange) (h : exec i s = .next t) (st : Byte) :
    exec i (s.withST st) = .next (t.withST st) := by
  cases i with
  | ldSt x => simp [Instr.mayChange] at hi
  | ret =>
    obtain he | ⟨j, hj⟩ := s.empty_or_live
    · exact withST_of_next h (execRet_of_empty he) (execRet_of_empty he)
    · exact withST_of_next h (execRet_of_live hj) (execRet_of_live (s := s.withST st) hj)
  | call nnn =>
    obtain he | ⟨j, hj⟩ := s.full_or_room
    · exact withST_of_next h (execCall_of_full nnn he) (execCall_of_full nnn he)
    · exact withST_of_next h (execCall_of_room nnn hj) (execCall_of_room (s := s.withST st) nnn hj)
  | skp x =>
    cases hk : keyOf (s.reg x) with
    | some k => exact withST_of_next h (execSkp_of_key hk) (s.skipIf_withST st _ ▸ execSkp_of_key hk)
    | none => exact withST_of_next h (execSkp_of_range hk) (execSkp_of_range hk)
  | sknp x =>
    cases hk : keyOf (s.reg x) with
    | some k => exact withST_of_next h (execSknp_of_key hk) (s.skipIf_withST st _ ▸ execSknp_of_key hk)
    | none => exact withST_of_next h (execSknp_of_range hk) (execSknp_of_range hk)
  | ldVxK x =>
    cases hk : firstKey s.key with
    | some k => exact withST_of_next h (execLdVxK_of_key x hk) (execLdVxK_of_key x hk)
    | none => exact withST_of_next h (execLdVxK_of_none x hk) (execLdVxK_of_none x hk)
  | seImm x nn | sneImm x nn | seReg x y | sneReg x y =>
    exact withST_of_next h rfl (congrArg _ (s.skipIf_withST st _))
  | drw x y n =>
    rw [exec, execDrw, State.sprite_withST]
    exact State.checked_withST h st
  | ldLoad x =>
    rw [exec, execLdLoad, State.loadRegs_withST]
    exact State.checked_withST h st
  | ldB x | ldStore x => exact State.checked_withST h st
  | _ => exact withST_of_next h rfl rfl

/-- Settles O57: Fx18 writes the same V[x] over either value of ST, and every other instruction does the same to both states. -/
theorem noInstructionReadsTheSoundTimer : Obligations.NoInstructionReadsTheSoundTimer := by
  intro i s t st h
  by_cases hi : StatePart.ST ∈ i.mayChange
  · obtain ⟨x, rfl⟩ := Instr.ST_mem_mayChange hi
    obtain rfl := Host.Outcome.next.inj h
    exact ⟨_, rfl, rfl, .inl ⟨x, rfl, rfl⟩⟩
  · exact ⟨t.withST st, exec_withST hi h st, rfl, .inr ⟨exec_frame h .ST hi, rfl⟩⟩

end Sys2Proof.Machine

/-! PROOFS. The moves of the host and the faults: n ticks, the key latch, stop and the renderer, the load port, and that an
instruction halts exactly where the table of R211 gives a cause. -/

namespace Sys2Proof.Machine

/-! ## A listed event -/

/-- Taking an event off the list changes the list only (log 1). -/
theorem State.frame_withEvents (s : State) (es : List Event) : Frame [.events] s (s.withEvents es) := by
  intro p hp; cases p <;> simp_all [StatePart.same, State.reg, State.byte, State.pixel]

/-- A move changes its own parts, and its event leaves the list. -/
theorem Frame.of_withEvents {ps : List StatePart} {s t : State} {es : List Event} (h : Frame ps (s.withEvents es) t) :
    Frame (ps ++ [.events]) s t :=
  ((s.frame_withEvents es).append h).mono (by simp [or_comm])

/-! ## Ticks -/

/-- One tick takes 1 off a timer, with floor 0 (R219). -/
theorem countDown_toNat (v : Byte) : (countDown v).toNat = v.toNat - 1 := by
  unfold countDown
  split
  case isTrue hpos => exact BitVec.toNat_sub_of_le (show 1 ≤ v from hpos)
  case isFalse hzero => omega

theorem State.frame_timers (s : State) (dt st : Byte) : Frame [.DT, .ST] s { s with DT := dt, ST := st } :=
  (s.frame_DT dt).append (State.frame_ST _ st)

theorem State.tick_of_running {s : State} (hr : s.status = .running) :
    s.tick = { s with DT := countDown s.DT, ST := countDown s.ST } := if_pos hr

/-- A listed tick of a Running core counts both timers down by 1 and changes nothing else (R219). -/
theorem step_of_tick {s : State} {es : List Event} (hr : s.status = .running) (he : s.events = .tick :: es) :
    ∃ t, step s = .next t ∧ t.DT.toNat = s.DT.toNat - 1 ∧ t.ST.toNat = s.ST.toNat - 1 ∧ t.events = es ∧
      Frame [.DT, .ST, .events] s t := by
  have htick := State.tick_of_running (s := s.withEvents es) hr
  have hstep := (step_of_event he).trans (congrArg Host.Outcome.next htick)
  exact ⟨_, hstep, countDown_toNat s.DT, countDown_toNat s.ST, rfl, .of_withEvents (State.frame_timers _ _ _)⟩

/-- Settles O49, by induction on the number of ticks: the first one leaves a Running core with the others listed. -/
theorem ticksCountTheTimersDown : Obligations.TicksCountTheTimersDown := by
  intro n
  induction n with
  | zero => exact fun s rest _ he => ⟨s, rfl, rfl, rfl, he, .refl _ s⟩
  | succ n ih =>
    intro s rest hr he
    obtain ⟨u, hstep, huDT, huST, hue, huframe⟩ := step_of_tick hr he
    have hur : u.status = .running := (huframe .status (by decide)).trans hr
    obtain ⟨t, hrun, hDT, hST, hte, hframe⟩ := ih u rest hur hue
    exact ⟨t, (core_run_of_next n hstep).trans hrun, by omega, by omega, hte, huframe.trans hframe⟩

/-! ## The key latch, stop and the renderer -/

theorem State.frame_key (s : State) (key : Vector Bool 16) : Frame [.key] s { s with key := key } := by
  intro p hp; cases p <;> simp_all [StatePart.same, State.reg, State.byte, State.pixel]

theorem State.frame_status (s : State) (st : Status) : Frame [.status] s { s with status := st } := by
  intro p hp; cases p <;> simp_all [StatePart.same, State.reg, State.byte, State.pixel]

theorem State.setKey_of_running {s : State} (hr : s.status = .running) (k : KeyIx) (b : Bool) :
    s.setKey k b = { s with key := s.key.set k b } := if_pos hr

/-- A key-down on a pressed key, which is ignored, is the write of the value it has (R221.1). -/
theorem State.keyDown_eq_setKey (s : State) (k : KeyIx) : s.keyDown k = s.setKey k true := by
  unfold State.keyDown
  split
  case isTrue hk =>
    have hset : s.key.set k true = s.key := hk ▸ Vector.set_getElem_self k.isLt
    rw [State.setKey, hset, ite_self]
  case isFalse => rfl

/-- A listed event that writes a key of a Running core changes that key only (R221). -/
theorem step_of_setKey {s : State} {e : Event} {es : List Event} {k : KeyIx} {b : Bool} (hr : s.status = .running)
    (he : s.events = e :: es) (hmove : runEvent e (s.withEvents es) = .next ((s.withEvents es).setKey k b)) :
    ∃ t, step s = .next t ∧ t.key[k] = b ∧ (∀ j : KeyIx, j ≠ k → t.key[j] = s.key[j]) ∧ t.events = es ∧
      Frame [.key, .events] s t := by
  have hset := State.setKey_of_running (s := s.withEvents es) hr k b
  have hstep := (step_of_event he).trans (hmove.trans (congrArg Host.Outcome.next hset))
  refine ⟨_, hstep, ?own, fun j hj => ?others, rfl, .of_withEvents (State.frame_key _ _)⟩
  case own => exact Vector.getElem_set_self k.isLt
  case others => exact Vector.getElem_set_ne k.isLt j.isLt fun h => hj (Fin.ext h.symm)

theorem State.stopSignal_of_running {s : State} (hr : s.status = .running) :
    s.stopSignal = { s with status := .stopped } := if_pos hr

/-- Settles O50: each move is one write, or none, on the state without its event. -/
theorem hostMovesChangeOnlyTheirOwn : Obligations.HostMovesChangeOnlyTheirOwn := by
  intro s k rest hr
  refine ⟨fun he => ?keyDown, fun he => ?keyRelease, fun he => ?stop, fun he => ?render⟩
  case keyDown => exact step_of_setKey hr he (congrArg _ (State.keyDown_eq_setKey _ k))
  case keyRelease => exact step_of_setKey hr he rfl
  case stop =>
    have hstop := State.stopSignal_of_running (s := s.withEvents rest) hr
    have hstep := (step_of_event he).trans (congrArg Host.Outcome.next hstop)
    exact ⟨_, hstep, rfl, rfl, .of_withEvents (State.frame_status _ _)⟩
  case render => exact ⟨_, step_of_event he, rfl, s.frame_withEvents rest⟩

/-! ## The load port -/

section
variable {s : State} {a : Addr} (d : Byte)

/-- In the window a byte of an image that loads is stored (R241). -/
theorem State.load_of_le (hr : s.status = .running) (ho : s.loadOpen = true) (hlo : 0x200 ≤ a.toNat)
    (hhi : a.toNat ≤ 0xFFE) : s.load a d = .next (s.storeBytes a.toNat [d]) := by
  have hloads : a.toNat < Config.progBase + Config.maxProgLen := Nat.lt_succ_of_le hhi
  rw [State.load, if_pos ⟨hr, ho, hlo⟩, if_pos hloads]

/-- In the window the byte at the last address is that of an image of 3584 bytes (R241). -/
theorem State.load_of_last (hr : s.status = .running) (ho : s.loadOpen = true) (ha : a.toNat = 0xFFF) :
    s.load a d = .refused (.imageTooLong 3584) := by
  have hlo : Config.progBase ≤ a.toNat := ha ▸ by decide
  have hhi : ¬ a.toNat < Config.progBase + Config.maxProgLen := ha ▸ by decide
  rw [State.load, if_pos ⟨hr, ho, hlo⟩, if_neg hhi]
  rfl

/-- Outside the window the host has no such move (R228; log 20). -/
theorem State.load_of_shut (h : s.loadOpen = false ∨ s.status ≠ .running ∨ a.toNat < 0x200) :
    s.load a d = .fault (.loadNotAllowed a) := by
  refine if_neg fun ⟨hr, ho, hlo⟩ => ?_
  obtain hshut | hnr | hlt := h
  · exact Bool.false_ne_true (hshut.symm.trans ho)
  · exact hnr hr
  · exact Nat.not_lt_of_le hlo hlt

end

/-- Settles O52: the step is the write of the port on the state without its event, by the three branches of that write. -/
theorem loadPortWritesTheImageBeforeTheFirstStep : Obligations.LoadPortWritesTheImageBeforeTheFirstStep := by
  intro s a d rest he
  have hstep : step s = (s.withEvents rest).load a d := step_of_event he
  refine ⟨fun hr ho hlo hhi => ?image, fun hr ho ha => hstep.trans (State.load_of_last d hr ho ha),
    fun h => hstep.trans (State.load_of_shut d h)⟩
  case image =>
    exact ⟨_, hstep.trans (State.load_of_le d hr ho hlo hhi),
      State.byte_storeBytes_of_inside _ a.toNat [d] 0 Nat.one_pos,
      State.memFrame_storeBytes (s.withEvents rest) a.toNat [d], rfl, .of_withEvents (State.frame_storeBytes _ _ _)⟩

/-! ## Faults -/

/-- The instruction answers a Running state and keeps the fault record. -/
def StaysRunning (i : Instr) (s : State) : Prop :=
  ∃ t, exec i s = .next t ∧ t.status = .running ∧ t.faultCode = s.faultCode ∧ t.faultPc = s.faultPc

/-- The instruction takes the fault that the table of R211 gives it, and stays Running where the table gives none. -/
def FaultsAsTabled (i : Instr) (s : State) : Prop :=
  (i.faultCause s ≠ .none → TakesFault i s (i.faultCause s)) ∧ (i.faultCause s = .none → StaysRunning i s)

/-- A row of the table of R211: one condition and one code. -/
theorem FaultsAsTabled.of_condition {i : Instr} {s : State} {p : Prop} [Decidable p] {c : FaultCode} (hc : c ≠ .none)
    (hcause : i.faultCause s = if p then c else .none) (hfault : p → TakesFault i s c)
    (hstay : ¬ p → StaysRunning i s) : FaultsAsTabled i s := by
  unfold FaultsAsTabled
  rw [hcause]
  split
  case isTrue hp => exact ⟨fun _ => hfault hp, fun h => absurd h hc⟩
  case isFalse hp => exact ⟨fun h => absurd rfl h, fun _ => hstay hp⟩

/-- A value that is at most 15 is the number of a key (R7). -/
theorem exists_key_of_not_lt {v : Byte} (h : ¬ 15 < v.toNat) : ∃ k : KeyIx, keyOf v = some k :=
  ⟨⟨v.toNat, by omega⟩, keyOf_of_toNat_eq rfl⟩

section
variable {i : Instr} {s : State} (hr : s.status = .running)
include hr

/-- What changes neither the status nor the fault record stays Running. -/
theorem StaysRunning.of_frame {ps : List StatePart} {t : State} (h : exec i s = .next t) (hframe : Frame ps s t)
    (hstatus : .status ∉ ps) (hrecord : .faultRecord ∉ ps) : StaysRunning i s :=
  ⟨t, h, (hframe .status hstatus).trans hr, hframe .faultRecord hrecord⟩

/-- An instruction that is no writer of the status has no row in the table of R211. -/
theorem FaultsAsTabled.of_status_kept (hi : .status ∉ i.mayChange) : FaultsAsTabled i s := by
  have hquiet : i.faultCause s = .none ∧ .faultRecord ∉ i.mayChange := by
    cases i with
    | ret | call _ | drw _ _ _ | skp _ | sknp _ | ldB _ | ldStore _ | ldLoad _ => simp [Instr.mayChange] at hi
    | _ => simp [Instr.faultCause, Instr.mayChange]
  obtain ⟨hcause, hrecord⟩ := hquiet
  obtain ⟨t, ht⟩ := everyInstructionAnswersANextState i s
  exact ⟨fun h => absurd hcause h, fun _ => .of_frame hr ht (exec_frame ht) hi hrecord⟩

/-- A row of the transfers: the range in memory is checked before the transfer, which keeps status and record (R51). -/
theorem FaultsAsTabled.of_checked {p : Prop} [Decidable p] {ps : List StatePart} {d : State} {n : Nat}
    (hexec : exec i s = s.checked s.base n d) (hcause : i.faultCause s = if p then .memRange else .none)
    (hp : p ↔ 0 < n ∧ 4096 < s.I.toNat + n) (hframe : Frame ps s d) (hstatus : .status ∉ ps)
    (hrecord : .faultRecord ∉ ps) : FaultsAsTabled i s := by
  refine .of_condition (by decide) hcause (fun h => ?outside) (fun h => ?inside)
  case outside =>
    obtain ⟨hn, hout⟩ := hp.mp h
    exact takesFault_of_checked hexec hn hout
  case inside =>
    have hrange : ¬ (0 < n ∧ 4096 < s.I.toNat + n) := mt hp.mpr h
    have hfits : n = 0 ∨ s.base + n ≤ 4096 := by rw [State.base]; omega
    exact .of_frame hr (hexec.trans (if_pos ((inMemory_iff _ _).mpr hfits))) hframe hstatus hrecord

/-- The row of RET: the empty stack. -/
theorem faultsAsTabled_ret : FaultsAsTabled .ret s := by
  refine .of_condition (by decide) rfl (fun hempty => takesFault_of_raise (execRet_of_empty hempty)) fun hlive => ?_
  obtain ⟨j, hj⟩ := s.empty_or_live.resolve_left hlive
  exact ⟨_, execRet_of_live hj, hr, rfl, rfl⟩

/-- The row of CALL: the full stack. -/
theorem faultsAsTabled_call (nnn : Addr) : FaultsAsTabled (.call nnn) s := by
  refine .of_condition (by decide) rfl (fun hfull => takesFault_of_raise (execCall_of_full nnn hfull)) fun hroom => ?_
  obtain ⟨j, hj⟩ := s.full_or_room.resolve_left hroom
  exact ⟨_, execCall_of_room nnn hj, hr, rfl, rfl⟩

/-- The row of SKP and SKNP: the key number. -/
theorem faultsAsTabled_skp (x : Reg) : FaultsAsTabled (.skp x) s := by
  refine .of_condition (by decide) rfl (fun h => takesFault_of_raise (execSkp_of_range (keyOf_of_lt h))) fun h => ?_
  obtain ⟨k, hk⟩ := exists_key_of_not_lt h
  exact .of_frame hr (execSkp_of_key hk) (s.frame_skipIf _) (by decide) (by decide)

theorem faultsAsTabled_sknp (x : Reg) : FaultsAsTabled (.sknp x) s := by
  refine .of_condition (by decide) rfl (fun h => takesFault_of_raise (execSknp_of_range (keyOf_of_lt h))) fun h => ?_
  obtain ⟨k, hk⟩ := exists_key_of_not_lt h
  exact .of_frame hr (execSknp_of_key hk) (s.frame_skipIf _) (by decide) (by decide)

end

/-- Settles O59: the eight writers of the status by their rows of the table, and every other instruction stays Running. -/
theorem faultsAreExactlyTheTabledOnes : Obligations.FaultsAreExactlyTheTabledOnes := by
  intro i s hr
  show FaultsAsTabled i s
  cases i with
  | ret => exact faultsAsTabled_ret hr
  | call nnn => exact faultsAsTabled_call hr nnn
  | skp x => exact faultsAsTabled_skp hr x
  | sknp x => exact faultsAsTabled_sknp hr x
  | ldB x | ldStore x => exact .of_checked hr rfl rfl (by omega) (s.frame_storeBytes _ _) (by decide) (by decide)
  | ldLoad x => exact .of_checked hr rfl rfl (by omega) (s.frame_loadRegs _ _) (by decide) (by decide)
  | drw x y n =>
    exact .of_checked hr rfl rfl (by omega) ((s.frame_pix _).append (State.frame_setReg _ vF _)) (by decide)
      (by decide)
  | _ => exact .of_status_kept hr (by simp [Instr.mayChange])

end Sys2Proof.Machine

/-! PROOFS. Construction and `rst`: each part of memory as construction leaves it, and that `rst` constructs again; a parked
core. -/

namespace Sys2Proof.Machine

/-! ## Construction -/

section
variable (font : Vector Byte 80) (image : List Byte)

/-- An image below 3584 bytes loads (R241). -/
theorem State.construct_of_lt (h : image.length < 3584) :
    State.construct font image = .next (State.constructed font image) :=
  if_pos (Nat.le_of_lt_succ h)

/-- A longer image has no state (R241). -/
theorem State.construct_of_le (h : 3584 ≤ image.length) :
    State.construct font image = .refused (.imageTooLong image.length) :=
  if_neg (Nat.not_le_of_lt h)

/-- Outside the image memory holds what the store of FONT left (R240). -/
theorem State.byte_constructed_of_outside {a : Nat} (h : ¬ (0x200 ≤ a ∧ a < 0x200 + image.length)) :
    (State.constructed font image).byte a = (State.reset.storeBytes 0 font.toList).byte a :=
  State.byte_storeBytes_of_outside _ 0x200 image a h

/-- FONT lies below the image (R55, R240). -/
theorem State.byte_constructed_font {a : Nat} (h : a < 80) : (State.constructed font image).byte a = font[a] := by
  have hfont := State.reset.byte_storeBytes_of_inside 0 font.toList a (by simpa using h)
  rw [State.byte_constructed_of_outside _ _ (by omega)]
  simpa using hfont

theorem State.byte_constructed_image {j : Nat} (h : j < image.length) :
    (State.constructed font image).byte (0x200 + j) = image[j] :=
  State.byte_storeBytes_of_inside _ 0x200 image j h

theorem State.byte_constructed_elsewhere {a : Nat} (hfont : 80 ≤ a)
    (himage : ¬ (0x200 ≤ a ∧ a < 0x200 + image.length)) : (State.constructed font image).byte a = 0 := by
  rw [State.byte_constructed_of_outside _ _ himage, State.byte_storeBytes_of_outside _ _ _ _ (by simpa using hfont)]
  exact Memory.blank_of_le a hfont

end

/-- Settles O7: memory by its three parts, and its canonical form from the invariant. -/
theorem constructionPlacesFontAndImage : Obligations.ConstructionPlacesFontAndImage := by
  refine fun font image => ⟨fun hlen => ?_, State.construct_of_le font image⟩
  have hinv : (State.constructed font image).Inv := State.constructed_inv font (Nat.le_of_lt_succ hlen)
  exact ⟨_, State.construct_of_lt font image hlen, fun _ => State.byte_constructed_font font image,
    fun _ => State.byte_constructed_image font image, fun _ => State.byte_constructed_elsewhere font image,
    hinv.mem_wf, rfl⟩

/-! ## `rst` -/

/-- Settles O51: `rst` is construction with an empty image, whose memory holds FONT and 0 elsewhere. -/
theorem rstConstructsAgain : Obligations.RstConstructsAgain := by
  intro s rest he
  have hstep : step s = .next (s.withEvents rest).rst := step_of_event he
  refine ⟨_, _, State.construct_of_lt s.font [] (by decide), hstep, rfl, ?_⟩
  exact ⟨fun _ => State.byte_constructed_font s.font [],
    fun _ h => State.byte_constructed_elsewhere s.font [] h (by simp), (State.rst_inv _).mem_wf, rfl, rfl⟩

/-! ## A parked core -/

/-- A jump to its own address undoes the fetch's advance, and a shut load port is not changed by the cycle (R91, R101; log
20). -/
theorem execJp_closeLoad_advance_of_self {s : State} {nnn : Addr} (hself : target nnn = s.pc) (hshut : s.loadOpen = false) :
    execJp nnn s.closeLoad.advance = .next s := by
  show Host.Outcome.next { s with pc := target nnn, loadOpen := false } = .next s
  rw [hself, ← hshut]

/-- Settles O60: the cycle runs the jump that stands at pc. -/
theorem parkedStateStaysAsItIs : Obligations.ParkedStateStaysAsItIs := by
  intro s ⟨hr, w, nnn, hf, hdecode, hself⟩ he hshut
  rw [step_of_no_events he, executeCycle_of_fetch hr hf, hdecode]
  exact execJp_closeLoad_advance_of_self hself hshut

end Sys2Proof.Machine
